-- ==== Sys2Proof/Word.lean ====
section
/-! DEFINITION. The values the hardware handles (R50) and the names it uses: the two MCUs (R10, R120),
the two roles (R11), the two agents of an MCU (R10), the progress of an engine (R95) and the thirteen operations
(R61). -/

namespace Sys2Proof

/-- An 8-bit pattern, bit `i` for bus line `i` (R31, R50): INTENT, TXWORD, OE, LINE, OBS. -/
abbrev Byte := BitVec 8

/-- The claimed line index IDX, 4 bits, legal values 0 to 8 (R50, R53). -/
abbrev Idx := BitVec 4

/-- The cycle counter CNT, 3 bits (R12). -/
abbrev Count := BitVec 3

/-- The slot word SLOT, 4 bits: role above counter (R50). -/
abbrev Slot := BitVec 4

/-- The two MCUs; there are exactly two (R10, R120). -/
inductive McuId where
  | m0
  | m1
  deriving DecidableEq, Repr, Inhabited

/-- The other MCU on the bus. -/
def McuId.peer : McuId → McuId
  | .m0 => .m1
  | .m1 => .m0

/-- ROLE, the one configuration option of an MCU (R11). -/
inductive Role where
  | roleA
  | roleB
  deriving DecidableEq, Repr, Inhabited

/-- The two agents of one MCU that take steps: ARB (the Bus Protocol Loop) and BTE (the engine) (R10). -/
inductive Agent where
  | arbiter
  | engine
  deriving DecidableEq, Repr, Inhabited

/-- How far the engine of an MCU goes on by itself: "it may stop taking words or stop producing results" (R95 (d)). -/
inductive Progress where
  /-- It takes words and produces results. -/
  | goesOn
  /-- It applies no further word. -/
  | takesNoWord
  /-- It latches no further sample. -/
  | givesNoResult
  deriving DecidableEq, Repr, Inhabited

/-- The operation names of R61. An operation of the STEP format has no bits: its name, or the phase
of its agent, selects it (R63 (c)). -/
inductive StepOp where
  | selA
  | selB
  | enc
  | inv
  | submit
  | retrieve
  | apply
  | sample
  | delayA
  | report
  | advance
  | cancel
  | runCycle
  deriving DecidableEq, Repr, Inhabited

/-- One operation as the hardware holds it before it is decoded, in one of the three formats of R63:
a slot word in the low four bits of a byte, a transmitted word, or the name of an operation. -/
inductive Code where
  | slot (b : Byte)
  | txword (b : Byte)
  | step (op : StepOp)
  deriving DecidableEq, Repr, Inhabited

end Sys2Proof
end

