-- ==== Sys2Proof/Config.lean ====
section
/-! DEFINITION. What an implementation fixes (the parameters of R6 and U13) and the free values: the schedule,
which no rule fixes (R10, R39), and the peer's steps that fall inside a RUNCYCLE (R106). -/

namespace Sys2Proof

/-- The parameters of R6. No step changes any of them (R21). -/
structure Config where
  /-- PIN_BASE of MCU 0: GPIO number of its line 0, OPEN, at least 2 (R34). Whether both MCUs use the same number is
  left open by R34 and N14, so each has its own (log entry 21). -/
  pinBase0 : Nat
  /-- PIN_BASE of MCU 1 (R34, log entry 21). -/
  pinBase1 : Nat
  /-- Entries of TXQ, OPEN, at least 1 (R17). -/
  txqDepth : Nat
  /-- Entries of RXQ, OPEN, at least 1 (R18). -/
  rxqDepth : Nat
  /-- T_SETTLE, OPEN, timing only: the step model has no time (R93, R141). -/
  tSettle : Nat
  /-- REPORT_DELAY_A, OPEN, timing only (R100). -/
  reportDelayA : Nat
  /-- INTENT_OOR, the encoder's output for line index 8, by default 0x00 (R57, log entry 10). -/
  intentOor : Byte
  /-- DRIVE_HOLD, by default true (R139, log entry 10). -/
  driveHold : Bool
  /-- HAS_CANCEL, by default false (R103, log entry 10). -/
  hasCancel : Bool
  /-- The output enables at reset, by default 0x00 (R24); U12 lets a cautious model take them as a
  parameter (log entry 10). -/
  resetOe : Byte
  deriving DecidableEq, Repr

/-- PIN_BASE of an MCU (R34, log entry 21). -/
def Config.pinBase (c : Config) : McuId → Nat
  | .m0 => c.pinBase0
  | .m1 => c.pinBase1

/-- The bounds R6 puts on the OPEN parameters. -/
abbrev Config.wf (c : Config) : Prop := 2 ≤ c.pinBase0 ∧ 2 ≤ c.pinBase1 ∧ 1 ≤ c.txqDepth ∧ 1 ≤ c.rxqDepth

/-- The decisions R6 fixes a value for: INTENT_OOR = 0x00, DRIVE_HOLD = true, released pads at reset (R24). -/
abbrev Config.decided (c : Config) : Prop :=
  c.intentOor = 0x00#8 ∧ c.driveHold = true ∧ c.resetOe = 0x00#8

/-- PIN_BASE of each MCU above its minimum: OPEN (R6, log entries 4 and 21). -/
opaque Config.openPinBase : McuId → Nat

/-- TXQ_DEPTH above its minimum: OPEN (R6, log entry 4). -/
opaque Config.openTxqDepth : Nat

/-- RXQ_DEPTH above its minimum: OPEN (R6, log entry 4). -/
opaque Config.openRxqDepth : Nat

/-- T_SETTLE: OPEN (R6, log entry 4). -/
opaque Config.openTSettle : Nat

/-- REPORT_DELAY_A: OPEN (R6, log entry 4). -/
opaque Config.openReportDelayA : Nat

/-- The parameters of the machine after reset: the spec's defaults, and free values for the OPEN ones (R6). -/
def Config.default : Config where
  pinBase0 := Config.openPinBase .m0 + 2
  pinBase1 := Config.openPinBase .m1 + 2
  txqDepth := Config.openTxqDepth + 1
  rxqDepth := Config.openRxqDepth + 1
  tSettle := Config.openTSettle
  reportDelayA := Config.openReportDelayA
  intentOor := 0x00#8
  driveHold := true
  hasCancel := false
  resetOe := 0x00#8

/-- BUS_WIDTH, "fixed constant = 8 lines" (R6). -/
def Config.busWidth : Nat := 8

/-- N_MCU, "exactly two participants" (R6). -/
def Config.nMcu : Nat := 2

/-- F_REF in hertz, timing only (R6, R141). -/
def Config.fRef : Nat := 125000000

/-- TICK_DIV, timing only (R6, R141). -/
def Config.tickDiv : Nat := 500

/-- What happens next: a decoder reads its word, a named operation is tried, an agent takes its turn, the
environment sets an input, or an engine stops or goes on. A trace (R7, R61) is a list of these. -/
inductive Turn where
  /-- Slot selection of MCU `m` reads its slot word (ROLE, CNT) (R56). -/
  | slot (m : McuId)
  /-- The pad driver of MCU `m` reads the transmitted word at the head of TXQ (R92). -/
  | pads (m : McuId)
  /-- The named operation of MCU `m` (R61). -/
  | step (m : McuId) (op : StepOp)
  /-- The agent of MCU `m` does what its phase selects (R10, R63 (c), R104). -/
  | agent (m : McuId) (a : Agent)
  /-- The environment drives the reset input of MCU `m` (R10, R130). -/
  | rst (m : McuId) (level : Bool)
  /-- The environment drives the cancel input of MCU `m` (R10, R103). -/
  | cancel (m : McuId) (level : Bool)
  /-- From now on the engine of MCU `m` goes so far by itself (R95 (d), log entry 8). -/
  | progress (m : McuId) (p : Progress)
  deriving DecidableEq, Repr, Inhabited

/-- FREE VALUE: the schedule. "at each point any enabled step of any of the four agents may be the next one";
nothing constrains it (R10, R39, log entry 1). -/
opaque Config.schedule : Nat → Turn

/-- FREE VALUE: the steps of the peer that fall into one gap of a RUNCYCLE (R106, log entry 8). -/
opaque Config.peerSteps : Nat → List Agent

end Sys2Proof
end

