-- ==== Sys2Proof/Syntax.lean ====
section
/-! DEFINITION. The operations: one constructor per row of the opcode table (R56, R61, R63), each naming
the MCU it belongs to, as a trace line does (R61). -/

namespace Sys2Proof

/-- An operation of one MCU. `selA0` to `selB7` are the sixteen slot words of R56, `drvL0` to `drvAny` the
transmitted words of R58 and R92, the rest the thirteen operations of R61. -/
inductive Instr where
  | selA0 (m : McuId)
  | selA1 (m : McuId)
  | selA2 (m : McuId)
  | selA3 (m : McuId)
  | selA4 (m : McuId)
  | selA5 (m : McuId)
  | selA6 (m : McuId)
  | selA7 (m : McuId)
  | selB0 (m : McuId)
  | selB1 (m : McuId)
  | selB2 (m : McuId)
  | selB3 (m : McuId)
  | selB4 (m : McuId)
  | selB5 (m : McuId)
  | selB6 (m : McuId)
  | selB7 (m : McuId)
  | drvL0 (m : McuId)
  | drvL1 (m : McuId)
  | drvL2 (m : McuId)
  | drvL3 (m : McuId)
  | drvL4 (m : McuId)
  | drvL5 (m : McuId)
  | drvL6 (m : McuId)
  | drvL7 (m : McuId)
  | drvNone (m : McuId)
  | drvAny (m : McuId) (w : Byte)
  | selA (m : McuId)
  | selB (m : McuId)
  | enc (m : McuId)
  | inv (m : McuId)
  | submit (m : McuId)
  | retrieve (m : McuId)
  | apply (m : McuId)
  | sample (m : McuId)
  | delayA (m : McuId)
  | report (m : McuId)
  | advance (m : McuId)
  | cancel (m : McuId)
  | runCycle (m : McuId)
  deriving DecidableEq, Repr, Inhabited

/-- The MCU whose operation it is (the part of a trace line before the dot, R61). -/
def Instr.mcu : Instr → McuId
  | .selA0 m => m
  | .selA1 m => m
  | .selA2 m => m
  | .selA3 m => m
  | .selA4 m => m
  | .selA5 m => m
  | .selA6 m => m
  | .selA7 m => m
  | .selB0 m => m
  | .selB1 m => m
  | .selB2 m => m
  | .selB3 m => m
  | .selB4 m => m
  | .selB5 m => m
  | .selB6 m => m
  | .selB7 m => m
  | .drvL0 m => m
  | .drvL1 m => m
  | .drvL2 m => m
  | .drvL3 m => m
  | .drvL4 m => m
  | .drvL5 m => m
  | .drvL6 m => m
  | .drvL7 m => m
  | .drvNone m => m
  | .drvAny m _ => m
  | .selA m => m
  | .selB m => m
  | .enc m => m
  | .inv m => m
  | .submit m => m
  | .retrieve m => m
  | .apply m => m
  | .sample m => m
  | .delayA m => m
  | .report m => m
  | .advance m => m
  | .cancel m => m
  | .runCycle m => m

end Sys2Proof
end

