-- ==== Sys2Proof/WellFormed.lean ====
section
/-! DEFINITION. Which operations are well formed: the catch-all DRV_ANY stands only for a word that has no row
of its own (R58, R63 (b)); every other operation has no field that could be wrong. -/

namespace Sys2Proof

/-- The nine transmitted words the arbiter can generate, each with a row of its own (R58). -/
def generatedWords : List Byte :=
  [0xFE#8, 0xFD#8, 0xFB#8, 0xF7#8, 0xEF#8, 0xDF#8, 0xBF#8, 0x7F#8, 0xFF#8]

/-- DRV_ANY "covers every other word" (R63 (b)); the other forms are always well formed. -/
def Instr.wellFormed : Instr → Bool
  | .drvAny _ w => !generatedWords.contains w
  | .selA0 _ | .selA1 _ | .selA2 _ | .selA3 _ | .selA4 _ | .selA5 _ | .selA6 _ | .selA7 _
  | .selB0 _ | .selB1 _ | .selB2 _ | .selB3 _ | .selB4 _ | .selB5 _ | .selB6 _ | .selB7 _
  | .drvL0 _ | .drvL1 _ | .drvL2 _ | .drvL3 _ | .drvL4 _ | .drvL5 _ | .drvL6 _ | .drvL7 _
  | .drvNone _ | .selA _ | .selB _ | .enc _ | .inv _ | .submit _ | .retrieve _ | .apply _
  | .sample _ | .delayA _ | .report _ | .advance _ | .cancel _ | .runCycle _ => true

end Sys2Proof
end

