-- ==== Sys2Proof/Decode.lean ====
section
/-! DEFINITION. The decoder of the three formats of R63 and the encoder back to them. A slot word is four bits
(R50): a byte with a bit above bit 3 is rejected by name. Every 8-bit transmitted word decodes (R58). An
operation of the STEP format is decoded from its name (R61, R63 (c)). -/

namespace Sys2Proof

/-- Why a code is no operation. -/
inductive DecodeError where
  /-- A slot word with a 1 above bit 3; R50 gives the format four bits. -/
  | slotHighBits
  deriving DecidableEq, Repr

/-- The slot words of R56: bit 3 is the role, bits 2 to 0 the counter. -/
def decodeSlot (m : McuId) (b : Byte) : Except DecodeError Instr :=
  match b.toNat with
  | 0b0000 => .ok (.selA0 m)
  | 0b0001 => .ok (.selA1 m)
  | 0b0010 => .ok (.selA2 m)
  | 0b0011 => .ok (.selA3 m)
  | 0b0100 => .ok (.selA4 m)
  | 0b0101 => .ok (.selA5 m)
  | 0b0110 => .ok (.selA6 m)
  | 0b0111 => .ok (.selA7 m)
  | 0b1000 => .ok (.selB0 m)
  | 0b1001 => .ok (.selB1 m)
  | 0b1010 => .ok (.selB2 m)
  | 0b1011 => .ok (.selB3 m)
  | 0b1100 => .ok (.selB4 m)
  | 0b1101 => .ok (.selB5 m)
  | 0b1110 => .ok (.selB6 m)
  | 0b1111 => .ok (.selB7 m)
  | _ => .error .slotHighBits

/-- The transmitted words of R58 and R63 (b): the nine generated ones by name, any other as DRV_ANY. -/
def decodeTxword (m : McuId) (b : Byte) : Instr :=
  match b.toNat with
  | 0b11111110 => .drvL0 m
  | 0b11111101 => .drvL1 m
  | 0b11111011 => .drvL2 m
  | 0b11110111 => .drvL3 m
  | 0b11101111 => .drvL4 m
  | 0b11011111 => .drvL5 m
  | 0b10111111 => .drvL6 m
  | 0b01111111 => .drvL7 m
  | 0b11111111 => .drvNone m
  | _ => .drvAny m b

/-- An operation by its name (R61). -/
def decodeStep (m : McuId) : StepOp → Instr
  | .selA => .selA m
  | .selB => .selB m
  | .enc => .enc m
  | .inv => .inv m
  | .submit => .submit m
  | .retrieve => .retrieve m
  | .apply => .apply m
  | .sample => .sample m
  | .delayA => .delayA m
  | .report => .report m
  | .advance => .advance m
  | .cancel => .cancel m
  | .runCycle => .runCycle m

/-- The whole decoder: every code of every format gives an operation or a named rejection. -/
def decode (m : McuId) : Code → Except DecodeError Instr
  | .slot b => decodeSlot m b
  | .txword b => .ok (decodeTxword m b)
  | .step op => .ok (decodeStep m op)

/-- The encoder, from the tables of R56, R58 and R61. -/
def encode : Instr → McuId × Code
  | .selA0 m => (m, .slot 0b0000#8)
  | .selA1 m => (m, .slot 0b0001#8)
  | .selA2 m => (m, .slot 0b0010#8)
  | .selA3 m => (m, .slot 0b0011#8)
  | .selA4 m => (m, .slot 0b0100#8)
  | .selA5 m => (m, .slot 0b0101#8)
  | .selA6 m => (m, .slot 0b0110#8)
  | .selA7 m => (m, .slot 0b0111#8)
  | .selB0 m => (m, .slot 0b1000#8)
  | .selB1 m => (m, .slot 0b1001#8)
  | .selB2 m => (m, .slot 0b1010#8)
  | .selB3 m => (m, .slot 0b1011#8)
  | .selB4 m => (m, .slot 0b1100#8)
  | .selB5 m => (m, .slot 0b1101#8)
  | .selB6 m => (m, .slot 0b1110#8)
  | .selB7 m => (m, .slot 0b1111#8)
  | .drvL0 m => (m, .txword 0b11111110#8)
  | .drvL1 m => (m, .txword 0b11111101#8)
  | .drvL2 m => (m, .txword 0b11111011#8)
  | .drvL3 m => (m, .txword 0b11110111#8)
  | .drvL4 m => (m, .txword 0b11101111#8)
  | .drvL5 m => (m, .txword 0b11011111#8)
  | .drvL6 m => (m, .txword 0b10111111#8)
  | .drvL7 m => (m, .txword 0b01111111#8)
  | .drvNone m => (m, .txword 0b11111111#8)
  | .drvAny m w => (m, .txword w)
  | .selA m => (m, .step .selA)
  | .selB m => (m, .step .selB)
  | .enc m => (m, .step .enc)
  | .inv m => (m, .step .inv)
  | .submit m => (m, .step .submit)
  | .retrieve m => (m, .step .retrieve)
  | .apply m => (m, .step .apply)
  | .sample m => (m, .step .sample)
  | .delayA m => (m, .step .delayA)
  | .report m => (m, .step .report)
  | .advance m => (m, .step .advance)
  | .cancel m => (m, .step .cancel)
  | .runCycle m => (m, .step .runCycle)

/-- The format and MCU of a word as the opcode table numbers it, from its width in bits and its value.
DESIGN CHOICE (log entry 9): the table gives a slot word and a transmitted word the same container, one
byte, so a value below 16 is read as a slot word (of the MCU that has the word's role in the intended
system, R10), any other 8-bit value as a transmitted word of MCU 0; the empty pattern of the STEP format is read in
the phase that reset leaves, where it selects SUBMIT (R24, R63 (c)). A word of more than 8 bits is none. -/
def tableCode (nbits w : Nat) : Option (McuId × Code) :=
  if nbits = 0 then
    if w = 0 then some (.m0, .step .submit) else none
  else if 8 < nbits ∨ 256 ≤ w then none
  else if w < 8 then some (.m0, .slot (BitVec.ofNat 8 w))
  else if w < 16 then some (.m1, .slot (BitVec.ofNat 8 w))
  else some (.m0, .txword (BitVec.ofNat 8 w))

/-- What the decoder reads from a word of the opcode table (the host's interface). -/
def decodeTableWord (nbits w : Nat) : Option Instr :=
  match tableCode nbits w with
  | none => none
  | some (m, c) =>
    match decode m c with
    | .ok i => some i
    | .error _ => none

end Sys2Proof
end

