-- ==== Sys2Proof/Machine/State.lean ====
section
/-! DEFINITION. The state of the two MCUs (R22), their inputs, the events emitted so far (R101), and the model's
own bookkeeping: the turns given from outside and the count of free values drawn. -/

namespace Sys2Proof.Machine

/-- PH, the phase of the arbiter's sequencer (R13). PH_HALT exists only with HAS_CANCEL (R103). -/
inductive Phase where
  | submit
  | retrieve
  | report
  | advance
  | halt
  deriving DecidableEq, Repr

/-- EPH, the phase of the engine: E_IDLE or E_SETTLE (R19). -/
inductive EnginePhase where
  | idle
  | settle
  deriving DecidableEq, Repr

/-- What an operation emits (R7 of the notation: `emits`) or, for a combinational one, shows in a trace (R61). -/
inductive Event where
  /-- SEL_A or SEL_B shows IDX (R70, R71). -/
  | index (m : McuId) (i : Idx)
  /-- ENC shows INTENT (R80). -/
  | intent (m : McuId) (v : Byte)
  /-- INV shows TXWORD (R81). -/
  | txword (m : McuId) (w : Byte)
  /-- A row of the code table shows what its slot word encodes to: IDX, INTENT, TXWORD (R56). -/
  | slotRow (m : McuId) (i : Idx) (v w : Byte)
  /-- APPLY(m, w) (R92). -/
  | apply (m : McuId) (w : Byte)
  /-- SAMPLE(m, v) (R93). -/
  | sample (m : McuId) (v : Byte)
  /-- REPORT(m, ROLE, TXWORD, OBSL) (R101). -/
  | report (m : McuId) (r : Role) (w v : Byte)
  /-- The pair RUNCYCLE returns to its caller (R106). -/
  | result (m : McuId) (w v : Byte)
  deriving DecidableEq, Repr

/-- One MCU: the registers of its arbiter (R12, R13, R16), the state of its engine (R17 to R19), and its inputs. -/
structure Mcu where
  /-- ROLE, the strap input, constant for the life of the MCU (R11, log entry 17). -/
  role : Role
  /-- CNT (R12). -/
  cnt : Count
  /-- PH (R13). -/
  ph : Phase
  /-- OBSL, the observed-pattern latch (R16). -/
  obsl : Byte
  /-- TXQ, oldest first (R17). -/
  txq : List Byte
  /-- RXQ, oldest first (R18). -/
  rxq : List Byte
  /-- OE, the output enables of the eight pads (R19). -/
  oe : Byte
  /-- EPH (R19). -/
  eph : EnginePhase
  /-- The reset input `rst` (R130, log entry 16). -/
  rst : Bool
  /-- The input `cancel` (R103, log entry 16). -/
  cancel : Bool
  /-- The model's own: how far the engine goes on by itself while a RUNCYCLE runs (R95 (d), R106, log entry 8). -/
  progress : Progress
  deriving DecidableEq, Repr

/-- The reasons an operation could fault: none. "No operation of this spec has a fault outcome" (R110), so
nothing raises one (log entry 15). -/
inductive Fault
  deriving DecidableEq, Repr

/-- The reasons a step could be refused. -/
inductive Refusal where
  /-- Raised by `exec` for an operation without a meaning; no arm of `exec` raises it. Safe. -/
  | notModelled (mnemonic : String)
  /-- Raised by `step` for a code the decoder rejects; a register holds only four bits of slot word, so no
  state raises it. Safe. -/
  | undecodable (e : DecodeError)
  deriving DecidableEq, Repr

/-- The whole system. `cfg` is fixed for the machine (R6, R21). `events` holds what was emitted, newest first.
`turns` and `draws` are the model's own: the turns given from outside, next first, and how many free
values the schedule has drawn (log entries 1 and 8). -/
structure State where
  cfg : Config
  mcu0 : Mcu
  mcu1 : Mcu
  events : List Event
  turns : List Turn
  draws : Nat
  deriving DecidableEq, Repr

/-- The registers of one MCU. -/
def State.mcu (s : State) : McuId → Mcu
  | .m0 => s.mcu0
  | .m1 => s.mcu1

/-- Replace the registers of one MCU. -/
def State.setMcu (s : State) (m : McuId) (x : Mcu) : State :=
  match m with
  | .m0 => { s with mcu0 := x }
  | .m1 => { s with mcu1 := x }

/-- An MCU of role `r` just out of reset (R24). OBSL has no reset value in the spec: 0x00 is a DESIGN CHOICE
(log entry 3). -/
def Mcu.reset (c : Config) (r : Role) : Mcu where
  role := r
  cnt := 0#3
  ph := .submit
  obsl := 0x00#8
  txq := []
  rxq := []
  oe := c.resetOe
  eph := .idle
  rst := false
  cancel := false
  progress := .goesOn

/-- Both MCUs just out of reset, MCU 0 with ROLE_A and MCU 1 with ROLE_B (R10, R24). -/
def State.reset : State where
  cfg := Config.default
  mcu0 := Mcu.reset Config.default .roleA
  mcu1 := Mcu.reset Config.default .roleB
  events := []
  turns := []
  draws := 0

end Sys2Proof.Machine
end

