-- ==== Sys2Proof/Machine/Operands.lean ====
section
/-! DEFINITION. The values the operations work on: slot word, line index, INTENT, TXWORD (R53 to R57, R70, R71,
R80 to R83), the resolved lines (R36) and the pads (R34, R94). None of them is state (R15, R20). -/

namespace Sys2Proof.Machine

/-- SEL_A: `IDX = zext_4(CNT)` (R70). -/
def indexA (c : Count) : Idx := c.setWidth 4

/-- SEL_B: `IDX = 8 - zext_4(CNT)`, on unsigned 4-bit values, no modulo (R71, R72). -/
def indexB (c : Count) : Idx := 8#4 - c.setWidth 4

/-- The claimed line index of a role at a counter value (R53, R83). -/
def indexOf (r : Role) (c : Count) : Idx :=
  match r with
  | .roleA => indexA c
  | .roleB => indexB c

/-- ENC: bit IDX set and every other bit clear for IDX up to 7, INTENT_OOR for IDX = 8, and 0x00 for the indices
9 to 15 that no slot word gives (R54, R57, R80, log entry 7). -/
def encodeIndex (cfg : Config) (i : Idx) : Byte :=
  if i ≤ 7#4 then (1#16 <<< i.toNat).setWidth 8
  else if i = 8#4 then cfg.intentOor
  else 0x00#8

/-- INV: `TXWORD = INTENT XOR 0xFF` (R55, R81). -/
def invert (v : Byte) : Byte := v ^^^ 0xFF#8

/-- INTENT of a role at a counter value: the lines pulled low (R51, R56). -/
def intentOf (cfg : Config) (r : Role) (c : Count) : Byte := encodeIndex cfg (indexOf r c)

/-- TXW(role, c), the word handed to the engine (R83). -/
def txw (cfg : Config) (r : Role) (c : Count) : Byte := invert (intentOf cfg r c)

/-- The bit `r` of a slot word: 0 = ROLE_A, 1 = ROLE_B (R50). -/
def roleBit : Role → BitVec 1
  | .roleA => 0#1
  | .roleB => 1#1

/-- The role a slot word names (R50). -/
def slotRole (w : Slot) : Role := if w.getLsbD 3 then .roleB else .roleA

/-- The counter value a slot word names (R50). -/
def slotCount (w : Slot) : Count := w.extractLsb' 0 3

/-- SLOT, the pair (ROLE, CNT) of an MCU written as one word (R50, R56). -/
def slotWord (x : Mcu) : Slot := roleBit x.role ++ x.cnt

/-- INTENT of an MCU in its present iteration (R15). -/
def Mcu.intent (cfg : Config) (x : Mcu) : Byte := intentOf cfg x.role x.cnt

/-- TXWORD of an MCU in its present iteration (R15). -/
def Mcu.txword (cfg : Config) (x : Mcu) : Byte := txw cfg x.role x.cnt

/-- W, the word the pads show: the one applied last, 0xFF while every line is released (R39, R94). -/
def Mcu.shown (x : Mcu) : Byte := ~~~x.oe

/-- LINE: the levels of the eight lines, low where either MCU pulls (R20, R36, log entry 12). -/
def line (s : State) : Byte := ~~~s.mcu0.oe &&& ~~~s.mcu1.oe

/-- Line `i` is GPIO `PIN_BASE + i` of each MCU, with that MCU's own PIN_BASE (R31, R34, log entry 21). -/
def gpioOfLine (cfg : Config) (m : McuId) (i : Fin 8) : Nat := cfg.pinBase m + i.val

/-- The two pins of an MCU below the bus, left to the console (R34, R137, log entry 21). -/
def reservedPins (cfg : Config) (m : McuId) : List Nat := [cfg.pinBase m - 2, cfg.pinBase m - 1]

/-- `pad_oe`, the enables of the pads (R94, R96). -/
def padOe (x : Mcu) : Byte := x.oe

/-- `pad_out`: the output value of every pad is the constant 0 (R94, R96). -/
def padOut : Byte := 0x00#8

/-- `pad_in`: the pads read the lines (R94, R96). -/
def padIn (s : State) : Byte := line s

end Sys2Proof.Machine
end

