-- ==== Sys2Proof/Machine/Flags.lean ====
section
/-! DEFINITION. The hardware has no status flag, condition code or predicate (R22): no operation computes one. The
one-bit conditions it does have stand here: what enables each operation (R90 to R93, R101 to R104) and the
handshake signals of the port reading (R96, log entry 19). -/

namespace Sys2Proof.Machine

/-- The cancel input is there and asserted (R103). -/
def cancelled (cfg : Config) (x : Mcu) : Bool := cfg.hasCancel && x.cancel

/-- SUBMIT: `PH = PH_SUBMIT and len(TXQ) < TXQ_DEPTH and not (HAS_CANCEL and cancel = 1)` (R90). -/
def submitEnabled (cfg : Config) (x : Mcu) : Bool :=
  x.ph == .submit && decide (x.txq.length < cfg.txqDepth) && !cancelled cfg x

/-- CANCEL: `PH = PH_SUBMIT and cancel = 1`, only if HAS_CANCEL (R103). -/
def cancelEnabled (cfg : Config) (x : Mcu) : Bool := x.ph == .submit && cancelled cfg x

/-- RETRIEVE: `PH = PH_RETRIEVE and len(RXQ) >= 1` (R91). -/
def retrieveEnabled (x : Mcu) : Bool := x.ph == .retrieve && decide (1 ≤ x.rxq.length)

/-- REPORT: `PH = PH_REPORT` (R101). -/
def reportEnabled (x : Mcu) : Bool := x.ph == .report

/-- ADVANCE: `PH = PH_ADVANCE` (R102). -/
def advanceEnabled (x : Mcu) : Bool := x.ph == .advance

/-- APPLY: `EPH = E_IDLE and len(TXQ) >= 1` (R92). -/
def applyEnabled (x : Mcu) : Bool := x.eph == .idle && decide (1 ≤ x.txq.length)

/-- SAMPLE: `EPH = E_SETTLE and len(RXQ) < RXQ_DEPTH` (R93). -/
def sampleEnabled (cfg : Config) (x : Mcu) : Bool :=
  x.eph == .settle && decide (x.rxq.length < cfg.rxqDepth)

/-- The engine goes on with what its phase selects, while a RUNCYCLE runs: it is not stopped before taking a word, nor
before producing a result (R95 (d), log entry 8). -/
def engineGoes (x : Mcu) : Bool :=
  match x.progress, x.eph with
  | .goesOn, _ => true
  | .takesNoWord, .idle => false
  | .takesNoWord, .settle => true
  | .givesNoResult, .idle => true
  | .givesNoResult, .settle => false

/-- `tx_data` (R96). -/
def txData (cfg : Config) (x : Mcu) : Byte := x.txword cfg

/-- `tx_valid`: 1 exactly while PH = PH_SUBMIT and not halted or cancelled (R96). -/
def txValid (cfg : Config) (x : Mcu) : Bool := x.ph == .submit && !cancelled cfg x

/-- `tx_ready`: 1 when TXQ has room (R96). -/
def txReady (cfg : Config) (x : Mcu) : Bool := decide (x.txq.length < cfg.txqDepth)

/-- `rx_data`: the oldest result, where there is one (R96). -/
def rxData (x : Mcu) : Option Byte := x.rxq.head?

/-- `rx_valid`: 1 when RXQ is not empty (R96). -/
def rxValid (x : Mcu) : Bool := decide (1 ≤ x.rxq.length)

/-- `rx_ready`: 1 exactly while PH = PH_RETRIEVE (R96). -/
def rxReady (x : Mcu) : Bool := x.ph == .retrieve

/-- `rpt_role`, 0 = ROLE_A (R101). -/
def rptRole (x : Mcu) : BitVec 1 := roleBit x.role

/-- `rpt_drv` (R101). -/
def rptDrv (cfg : Config) (x : Mcu) : Byte := x.txword cfg

/-- `rpt_obs` (R101); `rpt_valid` is the step REPORT itself. -/
def rptObs (x : Mcu) : Byte := x.obsl

end Sys2Proof.Machine
end

