-- ==== Sys2Proof/Machine/Ops.lean ====
section
/-! DEFINITION. The shared operations over the registers, queues and lines, each written once from its rule. An
operation that is not enabled cannot happen and its agent waits: the state stays as it is (R90, R91, R111,
log entry 2). There is no exception to take and none to return from (R110, R115, R116); what takes their place
is reset, which beats every step of its MCU (R130). -/

namespace Sys2Proof.Machine

/-- Add an event to the history (the `emits` of a rule). -/
def emit (e : Event) (s : State) : State := { s with events := e :: s.events }

/-- Put MCU `m` into the reset state of R24, and touch nothing else (R130). OBSL: log entry 3. -/
def resetMcu (m : McuId) (s : State) : State :=
  s.setMcu m { s.mcu m with
    cnt := 0#3, ph := .submit, obsl := 0x00#8, txq := [], rxq := [], oe := s.cfg.resetOe, eph := .idle }

/-- Do `f` with the registers of MCU `m`, unless its reset is asserted: "Reset wins over any step in the same
clock" (R130). -/
def whenUp (m : McuId) (s : State) (f : Mcu → State) : State :=
  if (s.mcu m).rst then resetMcu m s else f (s.mcu m)

/-- SEL_A or SEL_B: IDX is shown where the MCU has the role (R70, R71, log entry 6). -/
def showIndex (r : Role) (m : McuId) (s : State) : State :=
  if (s.mcu m).role = r then emit (.index m (indexOf r (s.mcu m).cnt)) s else s

/-- A row of the code table: where the MCU's slot word is the row's, the row's IDX, INTENT and TXWORD are
shown (R56, log entry 6). -/
def showRow (r : Role) (c : Count) (m : McuId) (s : State) : State :=
  if (s.mcu m).role = r ∧ (s.mcu m).cnt = c then
    emit (.slotRow m (indexOf r c) (intentOf s.cfg r c) (txw s.cfg r c)) s
  else s

/-- ENC: INTENT of the claimed line index is shown (R80). -/
def showIntent (m : McuId) (s : State) : State := emit (.intent m ((s.mcu m).intent s.cfg)) s

/-- INV: TXWORD of the present INTENT is shown (R81). -/
def showTxword (m : McuId) (s : State) : State :=
  emit (.txword m (invert ((s.mcu m).intent s.cfg))) s

/-- SUBMIT (R90). -/
def submit (m : McuId) (s : State) : State :=
  whenUp m s fun x =>
    if submitEnabled s.cfg x then
      s.setMcu m { x with txq := x.txq ++ [x.txword s.cfg], ph := .retrieve }
    else s

/-- APPLY, all eight enables in one step (R92, log entry 11). -/
def apply (m : McuId) (s : State) : State :=
  whenUp m s fun x =>
    match x.eph, x.txq with
    | .idle, w :: rest =>
      emit (.apply m w) (s.setMcu m { x with txq := rest, oe := ~~~w, eph := .settle })
    | .idle, [] => s
    | .settle, _ => s

/-- APPLY of the word `w` alone: enabled where APPLY is and `w` is the word at the head of TXQ. The pad driver's
rows of the opcode table (R63 (b), R92, log entry 5). -/
def drive (w : Byte) (m : McuId) (s : State) : State :=
  whenUp m s fun x => if x.txq.head? = some w then apply m s else s

/-- SAMPLE, with the release of the lines where DRIVE_HOLD is false (R93, R139, log entries 10 and 11). -/
def sample (m : McuId) (s : State) : State :=
  whenUp m s fun x =>
    if sampleEnabled s.cfg x then
      emit (.sample m (line s)) (s.setMcu m { x with
        rxq := x.rxq ++ [line s], eph := .idle, oe := if s.cfg.driveHold then x.oe else 0x00#8 })
    else s

/-- RETRIEVE (R91). -/
def retrieve (m : McuId) (s : State) : State :=
  whenUp m s fun x =>
    match x.ph, x.rxq with
    | .retrieve, v :: rest => s.setMcu m { x with obsl := v, rxq := rest, ph := .report }
    | .retrieve, [] => s
    | .submit, _ | .report, _ | .advance, _ | .halt, _ => s

/-- DELAY_A: no effect, timing only (R100, log entry 14). -/
def delayA (_m : McuId) (s : State) : State := s

/-- REPORT (R101, log entries 13 and 18). OBSL keeps its old value (log entry 3). -/
def report (m : McuId) (s : State) : State :=
  whenUp m s fun x =>
    if reportEnabled x then
      emit (.report m x.role (x.txword s.cfg) x.obsl) (s.setMcu m { x with ph := .advance })
    else s

/-- ADVANCE: `CNT <- (CNT + 1) mod 8`, in three bits (R102, R107). -/
def advance (m : McuId) (s : State) : State :=
  whenUp m s fun x =>
    if advanceEnabled x then s.setMcu m { x with cnt := x.cnt + 1#3, ph := .submit } else s

/-- CANCEL (R103). -/
def cancel (m : McuId) (s : State) : State :=
  whenUp m s fun x => if cancelEnabled s.cfg x then s.setMcu m { x with ph := .halt } else s

/-- The operation the arbiter's phase selects; in PH_SUBMIT cancel beats SUBMIT, in PH_HALT there is none
(R104, R114). -/
def arbiterOp (cfg : Config) (x : Mcu) : Option StepOp :=
  match x.ph with
  | .submit => some (if cancelled cfg x then .cancel else .submit)
  | .retrieve => some .retrieve
  | .report => some .report
  | .advance => some .advance
  | .halt => none

/-- The operation the engine's phase selects (R92, R93). -/
def engineOp (x : Mcu) : StepOp :=
  match x.eph with
  | .idle => .apply
  | .settle => .sample

/-- The operation an agent's phase selects. -/
def agentOp (cfg : Config) (x : Mcu) : Agent → Option StepOp
  | .arbiter => arbiterOp cfg x
  | .engine => some (engineOp x)

/-- One turn of an agent of MCU `m`: the operation its phase selects, tried once (R10). -/
def agentTurn (m : McuId) (s : State) (a : Agent) : State :=
  match a, (s.mcu m).ph, (s.mcu m).eph with
  | .arbiter, .submit, _ => if cancelled s.cfg (s.mcu m) then cancel m s else submit m s
  | .arbiter, .retrieve, _ => retrieve m s
  | .arbiter, .report, _ => report m s
  | .arbiter, .advance, _ => advance m s
  | .arbiter, .halt, _ => s
  | .engine, _, .idle => apply m s
  | .engine, _, .settle => sample m s

/-- Do `f`, a step of the engine of MCU `m`, unless that engine has stopped before it (R95 (d), log entry 8). -/
def whileGoing (m : McuId) (f : State → State) (s : State) : State :=
  if engineGoes (s.mcu m) then f s else s

/-- One turn of an agent of MCU `m` while a RUNCYCLE of its peer runs: an engine that has stopped takes none. -/
def gapTurn (m : McuId) (s : State) (a : Agent) : State :=
  match a with
  | .arbiter => agentTurn m s .arbiter
  | .engine => whileGoing m (fun u => agentTurn m u .engine) s

/-- The steps of the peer of MCU `m` that fall into one gap of a RUNCYCLE: a free list of turns of its two agents
("The peer's steps may fall anywhere between these steps", R106, log entry 8). -/
def peerGap (m : McuId) (s : State) : State :=
  let t := (Config.peerSteps s.draws).foldl (gapTurn m.peer) s
  { t with draws := t.draws + 1 }

/-- The steps of one RUNCYCLE in the order of R106, with the peer's steps between them. Where the engine has stopped,
its steps do not happen and RETRIEVE waits ("or blocks indefinitely if the engine never produces output"). -/
def cycleSteps (m : McuId) (s : State) : State :=
  report m (peerGap m (retrieve m (peerGap m (whileGoing m (sample m)
    (peerGap m (whileGoing m (apply m) (peerGap m (submit m s))))))))

/-- RUNCYCLE: started where SUBMIT is enabled; the result is the pair (TXWORD, OBS), once REPORT has been taken. A
RUNCYCLE whose engine stops is left waiting in PH_RETRIEVE, without a result (R106, log entry 8). -/
def runCycle (m : McuId) (s : State) : State :=
  whenUp m s fun x =>
    if submitEnabled s.cfg x then
      let t := cycleSteps m s
      if (t.mcu m).ph = .advance then emit (.result m (x.txword s.cfg) (t.mcu m).obsl) t else t
    else s

/-- The environment drives the reset input; while it is asserted the MCU is in the reset state (R130,
log entry 16). -/
def setRst (m : McuId) (level : Bool) (s : State) : State :=
  let t := s.setMcu m { s.mcu m with rst := level }
  if level then resetMcu m t else t

/-- The environment drives the cancel input (R103, log entry 16). -/
def setCancel (m : McuId) (level : Bool) (s : State) : State :=
  s.setMcu m { s.mcu m with cancel := level }

/-- The engine of MCU `m` stops or goes on (R95 (d), log entry 8). -/
def setProgress (m : McuId) (p : Progress) (s : State) : State :=
  s.setMcu m { s.mcu m with progress := p }

end Sys2Proof.Machine
end

