-- ==== Sys2Proof/Machine/Encoder.lean ====
section
/-! DEFINITION. The drive-pattern encoder: ENC and INV (R80, R81). It is combinational: it writes no register, queue or
line (R15). -/

namespace Sys2Proof.Machine

/-- ENC: the one-hot encoder (R80). -/
def execEnc (m : McuId) (s : State) : Host.Outcome State Fault Refusal :=
  .next (showIntent m s)

/-- INV: the inversion into the transmitted word (R81). -/
def execInv (m : McuId) (s : State) : Host.Outcome State Fault Refusal :=
  .next (showTxword m s)

end Sys2Proof.Machine
end

