-- ==== Sys2Proof/Machine/Report.lean ====
section
/-! DEFINITION. The report, the counter and the sequencer: DELAY_A, REPORT, ADVANCE, CANCEL, RUNCYCLE (R100 to R107). -/

namespace Sys2Proof.Machine

/-- DELAY_A (R100). -/
def execDelayA (m : McuId) (s : State) : Host.Outcome State Fault Refusal :=
  .next (delayA m s)

/-- REPORT (R101). -/
def execReport (m : McuId) (s : State) : Host.Outcome State Fault Refusal :=
  .next (report m s)

/-- ADVANCE (R102). -/
def execAdvance (m : McuId) (s : State) : Host.Outcome State Fault Refusal :=
  .next (advance m s)

/-- CANCEL (R103). -/
def execCancel (m : McuId) (s : State) : Host.Outcome State Fault Refusal :=
  .next (cancel m s)

/-- RUNCYCLE (R106). -/
def execRunCycle (m : McuId) (s : State) : Host.Outcome State Fault Refusal :=
  .next (runCycle m s)

end Sys2Proof.Machine
end

