-- ==== Sys2Proof/Machine/SlotSelect.lean ====
section
/-! DEFINITION. Slot selection: the sixteen slot words of R56, and SEL_A and SEL_B (R70, R71). It is combinational: it
writes no register, queue or line (R15). -/

namespace Sys2Proof.Machine

/-- SEL_A.0: the slot word 0 000 (R70, R56). -/
def execSelA0 (m : McuId) (s : State) : Host.Outcome State Fault Refusal :=
  .next (showRow .roleA 0#3 m s)

/-- SEL_A.1: the slot word 0 001 (R70, R56). -/
def execSelA1 (m : McuId) (s : State) : Host.Outcome State Fault Refusal :=
  .next (showRow .roleA 1#3 m s)

/-- SEL_A.2: the slot word 0 010 (R70, R56). -/
def execSelA2 (m : McuId) (s : State) : Host.Outcome State Fault Refusal :=
  .next (showRow .roleA 2#3 m s)

/-- SEL_A.3: the slot word 0 011 (R70, R56). -/
def execSelA3 (m : McuId) (s : State) : Host.Outcome State Fault Refusal :=
  .next (showRow .roleA 3#3 m s)

/-- SEL_A.4: the slot word 0 100 (R70, R56). -/
def execSelA4 (m : McuId) (s : State) : Host.Outcome State Fault Refusal :=
  .next (showRow .roleA 4#3 m s)

/-- SEL_A.5: the slot word 0 101 (R70, R56). -/
def execSelA5 (m : McuId) (s : State) : Host.Outcome State Fault Refusal :=
  .next (showRow .roleA 5#3 m s)

/-- SEL_A.6: the slot word 0 110 (R70, R56). -/
def execSelA6 (m : McuId) (s : State) : Host.Outcome State Fault Refusal :=
  .next (showRow .roleA 6#3 m s)

/-- SEL_A.7: the slot word 0 111 (R70, R56). -/
def execSelA7 (m : McuId) (s : State) : Host.Outcome State Fault Refusal :=
  .next (showRow .roleA 7#3 m s)

/-- SEL_B.0: the slot word 1 000 (R71, R56). -/
def execSelB0 (m : McuId) (s : State) : Host.Outcome State Fault Refusal :=
  .next (showRow .roleB 0#3 m s)

/-- SEL_B.1: the slot word 1 001 (R71, R56). -/
def execSelB1 (m : McuId) (s : State) : Host.Outcome State Fault Refusal :=
  .next (showRow .roleB 1#3 m s)

/-- SEL_B.2: the slot word 1 010 (R71, R56). -/
def execSelB2 (m : McuId) (s : State) : Host.Outcome State Fault Refusal :=
  .next (showRow .roleB 2#3 m s)

/-- SEL_B.3: the slot word 1 011 (R71, R56). -/
def execSelB3 (m : McuId) (s : State) : Host.Outcome State Fault Refusal :=
  .next (showRow .roleB 3#3 m s)

/-- SEL_B.4: the slot word 1 100 (R71, R56). -/
def execSelB4 (m : McuId) (s : State) : Host.Outcome State Fault Refusal :=
  .next (showRow .roleB 4#3 m s)

/-- SEL_B.5: the slot word 1 101 (R71, R56). -/
def execSelB5 (m : McuId) (s : State) : Host.Outcome State Fault Refusal :=
  .next (showRow .roleB 5#3 m s)

/-- SEL_B.6: the slot word 1 110 (R71, R56). -/
def execSelB6 (m : McuId) (s : State) : Host.Outcome State Fault Refusal :=
  .next (showRow .roleB 6#3 m s)

/-- SEL_B.7: the slot word 1 111 (R71, R56). -/
def execSelB7 (m : McuId) (s : State) : Host.Outcome State Fault Refusal :=
  .next (showRow .roleB 7#3 m s)

/-- SEL_A: slot selection for ROLE_A (R70). -/
def execSelA (m : McuId) (s : State) : Host.Outcome State Fault Refusal :=
  .next (showIndex .roleA m s)

/-- SEL_B: slot selection for ROLE_B (R71). -/
def execSelB (m : McuId) (s : State) : Host.Outcome State Fault Refusal :=
  .next (showIndex .roleB m s)

end Sys2Proof.Machine
end

