-- ==== Sys2Proof/Machine/Transfer.lean ====
section
/-! DEFINITION. The transfer and the open-drain driver: the pad driver's words (R58, R92), SUBMIT, RETRIEVE, APPLY and
SAMPLE (R90 to R93). -/

namespace Sys2Proof.Machine

/-- DRV_L0: APPLY of the word 0b11111110, which pulls line 0 low (R92). -/
def execDrvL0 (m : McuId) (s : State) : Host.Outcome State Fault Refusal :=
  .next (drive 0xFE#8 m s)

/-- DRV_L1: APPLY of the word 0b11111101, which pulls line 1 low (R92). -/
def execDrvL1 (m : McuId) (s : State) : Host.Outcome State Fault Refusal :=
  .next (drive 0xFD#8 m s)

/-- DRV_L2: APPLY of the word 0b11111011, which pulls line 2 low (R92). -/
def execDrvL2 (m : McuId) (s : State) : Host.Outcome State Fault Refusal :=
  .next (drive 0xFB#8 m s)

/-- DRV_L3: APPLY of the word 0b11110111, which pulls line 3 low (R92). -/
def execDrvL3 (m : McuId) (s : State) : Host.Outcome State Fault Refusal :=
  .next (drive 0xF7#8 m s)

/-- DRV_L4: APPLY of the word 0b11101111, which pulls line 4 low (R92). -/
def execDrvL4 (m : McuId) (s : State) : Host.Outcome State Fault Refusal :=
  .next (drive 0xEF#8 m s)

/-- DRV_L5: APPLY of the word 0b11011111, which pulls line 5 low (R92). -/
def execDrvL5 (m : McuId) (s : State) : Host.Outcome State Fault Refusal :=
  .next (drive 0xDF#8 m s)

/-- DRV_L6: APPLY of the word 0b10111111, which pulls line 6 low (R92). -/
def execDrvL6 (m : McuId) (s : State) : Host.Outcome State Fault Refusal :=
  .next (drive 0xBF#8 m s)

/-- DRV_L7: APPLY of the word 0b01111111, which pulls line 7 low (R92). -/
def execDrvL7 (m : McuId) (s : State) : Host.Outcome State Fault Refusal :=
  .next (drive 0x7F#8 m s)

/-- DRV_NONE: APPLY of the word 0b11111111, which pulls no line (R92). -/
def execDrvNone (m : McuId) (s : State) : Host.Outcome State Fault Refusal :=
  .next (drive 0xFF#8 m s)

/-- DRV_ANY: APPLY of any other word; every 0 bit pulls its line low (R58, R92). -/
def execDrvAny (m : McuId) (w : Byte) (s : State) : Host.Outcome State Fault Refusal :=
  .next (drive w m s)

/-- SUBMIT (R90). -/
def execSubmit (m : McuId) (s : State) : Host.Outcome State Fault Refusal :=
  .next (submit m s)

/-- RETRIEVE (R91). -/
def execRetrieve (m : McuId) (s : State) : Host.Outcome State Fault Refusal :=
  .next (retrieve m s)

/-- APPLY (R92). -/
def execApply (m : McuId) (s : State) : Host.Outcome State Fault Refusal :=
  .next (apply m s)

/-- SAMPLE (R93). -/
def execSample (m : McuId) (s : State) : Host.Outcome State Fault Refusal :=
  .next (sample m s)

end Sys2Proof.Machine
end

