-- ==== Sys2Proof/Machine/Dispatch.lean ====
section
/-! DEFINITION. One operation: each constructor of Instr goes to its own meaning. -/

namespace Sys2Proof.Machine

def exec (i : Instr) (s : State) : Host.Outcome State Fault Refusal :=
  match i with
  | .selA0 m => Sys2Proof.Machine.execSelA0 m s
  | .selA1 m => Sys2Proof.Machine.execSelA1 m s
  | .selA2 m => Sys2Proof.Machine.execSelA2 m s
  | .selA3 m => Sys2Proof.Machine.execSelA3 m s
  | .selA4 m => Sys2Proof.Machine.execSelA4 m s
  | .selA5 m => Sys2Proof.Machine.execSelA5 m s
  | .selA6 m => Sys2Proof.Machine.execSelA6 m s
  | .selA7 m => Sys2Proof.Machine.execSelA7 m s
  | .selB0 m => Sys2Proof.Machine.execSelB0 m s
  | .selB1 m => Sys2Proof.Machine.execSelB1 m s
  | .selB2 m => Sys2Proof.Machine.execSelB2 m s
  | .selB3 m => Sys2Proof.Machine.execSelB3 m s
  | .selB4 m => Sys2Proof.Machine.execSelB4 m s
  | .selB5 m => Sys2Proof.Machine.execSelB5 m s
  | .selB6 m => Sys2Proof.Machine.execSelB6 m s
  | .selB7 m => Sys2Proof.Machine.execSelB7 m s
  | .drvL0 m => Sys2Proof.Machine.execDrvL0 m s
  | .drvL1 m => Sys2Proof.Machine.execDrvL1 m s
  | .drvL2 m => Sys2Proof.Machine.execDrvL2 m s
  | .drvL3 m => Sys2Proof.Machine.execDrvL3 m s
  | .drvL4 m => Sys2Proof.Machine.execDrvL4 m s
  | .drvL5 m => Sys2Proof.Machine.execDrvL5 m s
  | .drvL6 m => Sys2Proof.Machine.execDrvL6 m s
  | .drvL7 m => Sys2Proof.Machine.execDrvL7 m s
  | .drvNone m => Sys2Proof.Machine.execDrvNone m s
  | .drvAny m w => Sys2Proof.Machine.execDrvAny m w s
  | .selA m => Sys2Proof.Machine.execSelA m s
  | .selB m => Sys2Proof.Machine.execSelB m s
  | .enc m => Sys2Proof.Machine.execEnc m s
  | .inv m => Sys2Proof.Machine.execInv m s
  | .submit m => Sys2Proof.Machine.execSubmit m s
  | .retrieve m => Sys2Proof.Machine.execRetrieve m s
  | .apply m => Sys2Proof.Machine.execApply m s
  | .sample m => Sys2Proof.Machine.execSample m s
  | .delayA m => Sys2Proof.Machine.execDelayA m s
  | .report m => Sys2Proof.Machine.execReport m s
  | .advance m => Sys2Proof.Machine.execAdvance m s
  | .cancel m => Sys2Proof.Machine.execCancel m s
  | .runCycle m => Sys2Proof.Machine.execRunCycle m s

end Sys2Proof.Machine
end

