-- ==== Sys2Proof/Machine/Fetch.lean ====
section
/-! DEFINITION. How the next operation is chosen and where its code is read. There is no instruction stream (R7,
R44): slot selection reads its slot word from (ROLE, CNT), the pad driver its word from the head of TXQ, a named
operation comes by name, and an agent does what its phase selects (R63). Which of these is next is the
schedule's free choice (R10). -/

namespace Sys2Proof.Machine

/-- The next turn: the first one given from outside, else a free value of the schedule (R10, R39, log entry 1). -/
def nextTurn (s : State) : Turn × State :=
  match s.turns with
  | t :: rest => (t, { s with turns := rest })
  | [] => (Config.schedule s.draws, { s with draws := s.draws + 1 })

/-- The code a turn reads from the machine, and whose it is; none where there is nothing to read or the turn is
the environment's or an engine's progress. -/
def fetchCode (t : Turn) (s : State) : Option (McuId × Code) :=
  match t with
  | .slot m => some (m, .slot ((slotWord (s.mcu m)).setWidth 8))
  | .pads m => (s.mcu m).txq.head?.map fun w => (m, .txword w)
  | .step m op => some (m, .step op)
  | .agent m a => (agentOp s.cfg (s.mcu m) a).map fun op => (m, .step op)
  | .rst _ _ => none
  | .cancel _ _ => none
  | .progress _ _ => none

/-- A turn that reads no code: the environment's two inputs change (R10), an engine stops or goes on (R95 (d)); a
decoder or agent with nothing to do waits (R111, log entry 2). -/
def idleTurn (t : Turn) (s : State) : State :=
  match t with
  | .rst m level => setRst m level s
  | .cancel m level => setCancel m level s
  | .progress m p => setProgress m p s
  | .slot _ => s
  | .pads _ => s
  | .step _ _ => s
  | .agent _ _ => s

/-- Store a code where its decoder reads it, and give that decoder the next turn: a slot word into (ROLE, CNT), a
transmitted word at the head of TXQ; an operation by name has no bits to store. -/
def placeCode (m : McuId) (c : Code) (s : State) : State :=
  match c with
  | .slot b =>
    let w : Slot := b.setWidth 4
    let t := s.setMcu m { s.mcu m with role := slotRole w, cnt := slotCount w }
    { t with turns := .slot m :: t.turns }
  | .txword b =>
    let t := s.setMcu m { s.mcu m with txq := b :: (s.mcu m).txq }
    { t with turns := .pads m :: t.turns }
  | .step op => { s with turns := .step m op :: s.turns }

end Sys2Proof.Machine
end

