-- ==== Sys2Proof/Machine/Step.lean ====
section
/-! DEFINITION. One step of the system: the next turn, the code it reads, the operation that code decodes to. -/

namespace Sys2Proof.Machine

/-- One atomic step of the system (R10). -/
def step (s : State) : Host.Outcome State Fault Refusal :=
  match fetchCode (nextTurn s).1 (nextTurn s).2 with
  | none => .next (idleTurn (nextTurn s).1 (nextTurn s).2)
  | some (m, c) =>
    match decode m c with
    | .ok i => exec i (nextTurn s).2
    | .error e => .refused (.undecodable e)

/-- `s` with a word of the opcode table stored where the next step reads it (the host's interface, log entry 9). A
word the table has no format for is not stored. -/
def State.withFetchWord (s : State) (nbits w : Nat) : State :=
  match tableCode nbits w with
  | some (m, c) => placeCode m c s
  | none => s

end Sys2Proof.Machine
end

