-- ==== Sys2Proof/Safety.lean ====
section
/-! DEFINITION. What the claims are about: runs of named operations, the invariant of R25, a stalled arbiter (R111),
contention on a line (R112), and two systems that differ only in what was observed (R105). -/

namespace Sys2Proof.Machine

/-- A run of named operations, a trace of R61 without its turns. -/
def execAll : List Instr → State → Host.Outcome State Fault Refusal
  | [], s => .next s
  | i :: rest, s =>
    match exec i s with
    | .next t => execAll rest t
    | .fault r => .fault r
    | .refused r => .refused r

/-- The operations that are a step of the engine of the MCU: APPLY in all its forms, and SAMPLE. -/
def engineStep : Instr → Bool
  | .drvL0 _ | .drvL1 _ | .drvL2 _ | .drvL3 _ | .drvL4 _ | .drvL5 _ | .drvL6 _ | .drvL7 _
  | .drvNone _ | .drvAny _ _ | .apply _ | .sample _ => true
  | .selA0 _ | .selA1 _ | .selA2 _ | .selA3 _ | .selA4 _ | .selA5 _ | .selA6 _ | .selA7 _
  | .selB0 _ | .selB1 _ | .selB2 _ | .selB3 _ | .selB4 _ | .selB5 _ | .selB6 _ | .selB7 _
  | .selA _ | .selB _ | .enc _ | .inv _ | .submit _ | .retrieve _ | .delayA _ | .report _
  | .advance _ | .cancel _ | .runCycle _ => false

/-- The composite RUNCYCLE, the one operation in which steps of the peer fall (R106). -/
def composite : Instr → Bool
  | .runCycle _ => true
  | .drvL0 _ | .drvL1 _ | .drvL2 _ | .drvL3 _ | .drvL4 _ | .drvL5 _ | .drvL6 _ | .drvL7 _
  | .drvNone _ | .drvAny _ _ | .apply _ | .sample _
  | .selA0 _ | .selA1 _ | .selA2 _ | .selA3 _ | .selA4 _ | .selA5 _ | .selA6 _ | .selA7 _
  | .selB0 _ | .selB1 _ | .selB2 _ | .selB3 _ | .selB4 _ | .selB5 _ | .selB6 _ | .selB7 _
  | .selA _ | .selB _ | .enc _ | .inv _ | .submit _ | .retrieve _ | .delayA _ | .report _
  | .advance _ | .cancel _ => false

/-- The MCU that emitted or showed an event. -/
def Event.mcu : Event → McuId
  | .index m _ => m
  | .intent m _ => m
  | .txword m _ => m
  | .slotRow m _ _ _ => m
  | .apply m _ => m
  | .sample m _ => m
  | .report m _ _ _ => m
  | .result m _ _ => m

/-- The transfers in flight of one MCU: words submitted, applied or sampled and not yet retrieved (R25 (a)). -/
def inFlight (x : Mcu) : Nat :=
  x.txq.length + (if x.eph = .settle then 1 else 0) + x.rxq.length

/-- The registers of an MCU held in reset (R24, R130); OBSL is unspecified there. -/
abbrev InReset (cfg : Config) (x : Mcu) : Prop :=
  x.cnt = 0#3 ∧ x.ph = .submit ∧ x.txq = [] ∧ x.rxq = [] ∧ x.oe = cfg.resetOe ∧ x.eph = .idle

/-- R25 for one MCU: (a) at most one transfer in flight, and one exactly in PH_RETRIEVE; (b) a word in TXQ is the
iteration's own, and the pads show the reset value, a released bus or an INTENT of the role, which is the
iteration's own while its sample is due; PH_HALT only with HAS_CANCEL (R13); while reset is asserted the
registers are the reset state (R130). -/
abbrev McuInv (cfg : Config) (x : Mcu) : Prop :=
  inFlight x = (if x.ph = .retrieve then 1 else 0) ∧
  (∀ w ∈ x.txq, w = x.txword cfg) ∧
  (x.oe = cfg.resetOe ∨ x.oe = 0x00#8 ∨ ∃ c, x.oe = intentOf cfg x.role c) ∧
  (x.eph = .settle → x.oe = x.intent cfg) ∧
  (x.ph = .halt → cfg.hasCancel = true) ∧
  (x.rst = true → InReset cfg x)

/-- The invariant of the system (R25). -/
abbrev SystemInv (s : State) : Prop :=
  s.cfg.wf ∧ McuInv s.cfg s.mcu0 ∧ McuInv s.cfg s.mcu1

/-- The arbiter waits on its engine: PH_RETRIEVE with RXQ empty, or PH_SUBMIT with TXQ full and no
cancellation (R111). -/
abbrev Waiting (cfg : Config) (x : Mcu) : Prop :=
  (x.ph = .retrieve ∧ x.rxq = []) ∨
  (x.ph = .submit ∧ cfg.txqDepth ≤ x.txq.length ∧ cancelled cfg x = false)

/-- Both MCUs pull line `i` low (R112). -/
def contended (s : State) (i : Nat) : Bool := s.mcu0.oe.getLsbD i && s.mcu1.oe.getLsbD i

/-- Two MCUs that differ at most in what was observed: the results waiting in RXQ and the latch OBSL (R105). -/
abbrev SameMcuControl (x y : Mcu) : Prop :=
  x.role = y.role ∧ x.cnt = y.cnt ∧ x.ph = y.ph ∧ x.txq = y.txq ∧ x.oe = y.oe ∧ x.eph = y.eph ∧
  x.rst = y.rst ∧ x.cancel = y.cancel ∧ x.progress = y.progress ∧ x.rxq.length = y.rxq.length

/-- Two systems that differ at most in what was observed and in what was emitted. -/
abbrev SameControl (s t : State) : Prop :=
  s.cfg = t.cfg ∧ s.turns = t.turns ∧ s.draws = t.draws ∧
  SameMcuControl s.mcu0 t.mcu0 ∧ SameMcuControl s.mcu1 t.mcu1

end Sys2Proof.Machine
end

