-- ==== Sys2Proof/Certificates/Slice0/Obligations.lean ====
section
/-! DEFINITION. The statements for the provers, each from the rule or section of the spec its docstring names. A
statement of what an operation does gives the whole next state, so what it leaves unchanged is said with it. -/

open Sys2Proof Sys2Proof.Machine

/-! ### Encoding -/

/-- Decode and encode agree: the code of every well-formed operation decodes to it (R56, R58, R61, R63). -/
def Obligations.DecodeReadsEncodedInstr : Prop :=
  ∀ i : Instr, i.wellFormed = true → decode (encode i).1 (encode i).2 = .ok i

/-- The other direction: an operation the decoder gives is well formed and its code is the one that was decoded, so no
two codes give one operation (R56, R58, R63). -/
def Obligations.DecodedCodeIsTheOneEncoded : Prop :=
  ∀ (m : McuId) (c : Code) (i : Instr), decode m c = .ok i → i.wellFormed = true ∧ encode i = (m, c)

/-- Every four-bit slot word decodes, and a byte with a bit above bit 3 is rejected by name (R50, R56). -/
def Obligations.SlotWordsHaveFourBits : Prop :=
  ∀ (m : McuId) (b : Byte),
    (b.toNat < 16 → ∃ i, decode m (.slot b) = .ok i ∧ i.mcu = m) ∧
    (16 ≤ b.toNat → decode m (.slot b) = .error .slotHighBits)

/-- A few words written out from R56 and R58 decode to the operations they stand for. -/
def Obligations.WordsOfTheSpecDecode : Prop :=
  decode .m0 (.slot 0b0011#8) = .ok (.selA3 .m0) ∧
  decode .m1 (.slot 0b1000#8) = .ok (.selB0 .m1) ∧
  decode .m0 (.txword 0b11110111#8) = .ok (.drvL3 .m0) ∧
  decode .m1 (.txword 0b11111111#8) = .ok (.drvNone .m1) ∧
  decode .m1 (.txword 0b00000000#8) = .ok (.drvAny .m1 0x00#8) ∧
  decode .m0 (.step .submit) = .ok (.submit .m0)

/-- The sixteen rows of the code table: IDX, INTENT and TXWORD of each slot word, with INTENT_OOR = 0x00 (R56). -/
def Obligations.CodeTableRows : Prop :=
  ∀ cfg : Config, cfg.intentOor = 0x00#8 →
    [0#3, 1#3, 2#3, 3#3, 4#3, 5#3, 6#3, 7#3].map
        (fun c => (indexOf .roleA c, intentOf cfg .roleA c, txw cfg .roleA c)) =
      [(0#4, 0x01#8, 0xFE#8), (1#4, 0x02#8, 0xFD#8), (2#4, 0x04#8, 0xFB#8), (3#4, 0x08#8, 0xF7#8),
       (4#4, 0x10#8, 0xEF#8), (5#4, 0x20#8, 0xDF#8), (6#4, 0x40#8, 0xBF#8), (7#4, 0x80#8, 0x7F#8)] ∧
    [0#3, 1#3, 2#3, 3#3, 4#3, 5#3, 6#3, 7#3].map
        (fun c => (indexOf .roleB c, intentOf cfg .roleB c, txw cfg .roleB c)) =
      [(8#4, 0x00#8, 0xFF#8), (7#4, 0x80#8, 0x7F#8), (6#4, 0x40#8, 0xBF#8), (5#4, 0x20#8, 0xDF#8),
       (4#4, 0x10#8, 0xEF#8), (3#4, 0x08#8, 0xF7#8), (2#4, 0x04#8, 0xFB#8), (1#4, 0x02#8, 0xFD#8)]

/-! ### Slot selection and the encoder -/

/-- Each slot word of ROLE_A shows its row's IDX, INTENT and TXWORD and changes nothing else (R70, R56). That they are shown
as an event is the model's choice (log entry 6, after R61). -/
def Obligations.SelARowsShowTheirCodes : Prop :=
  ∀ (s : State) (m : McuId), (s.mcu m).role = .roleA →
    ((s.mcu m).cnt = 0#3 → exec (.selA0 m) s =
      .next { s with events := .slotRow m 0#4 0x01#8 0xFE#8 :: s.events }) ∧
    ((s.mcu m).cnt = 1#3 → exec (.selA1 m) s =
      .next { s with events := .slotRow m 1#4 0x02#8 0xFD#8 :: s.events }) ∧
    ((s.mcu m).cnt = 2#3 → exec (.selA2 m) s =
      .next { s with events := .slotRow m 2#4 0x04#8 0xFB#8 :: s.events }) ∧
    ((s.mcu m).cnt = 3#3 → exec (.selA3 m) s =
      .next { s with events := .slotRow m 3#4 0x08#8 0xF7#8 :: s.events }) ∧
    ((s.mcu m).cnt = 4#3 → exec (.selA4 m) s =
      .next { s with events := .slotRow m 4#4 0x10#8 0xEF#8 :: s.events }) ∧
    ((s.mcu m).cnt = 5#3 → exec (.selA5 m) s =
      .next { s with events := .slotRow m 5#4 0x20#8 0xDF#8 :: s.events }) ∧
    ((s.mcu m).cnt = 6#3 → exec (.selA6 m) s =
      .next { s with events := .slotRow m 6#4 0x40#8 0xBF#8 :: s.events }) ∧
    ((s.mcu m).cnt = 7#3 → exec (.selA7 m) s =
      .next { s with events := .slotRow m 7#4 0x80#8 0x7F#8 :: s.events })

/-- Each slot word of ROLE_B shows its row's IDX, INTENT and TXWORD and changes nothing else (R71, R56). INTENT of
SEL_B.0 is the parameter INTENT_OOR, whatever its value (R57). That they are shown as an event is the model's choice
(log entry 6, after R61). -/
def Obligations.SelBRowsShowTheirCodes : Prop :=
  ∀ (s : State) (m : McuId), (s.mcu m).role = .roleB →
    ((s.mcu m).cnt = 0#3 → exec (.selB0 m) s =
      .next { s with events := .slotRow m 8#4 s.cfg.intentOor (s.cfg.intentOor ^^^ 0xFF#8) :: s.events }) ∧
    ((s.mcu m).cnt = 1#3 → exec (.selB1 m) s =
      .next { s with events := .slotRow m 7#4 0x80#8 0x7F#8 :: s.events }) ∧
    ((s.mcu m).cnt = 2#3 → exec (.selB2 m) s =
      .next { s with events := .slotRow m 6#4 0x40#8 0xBF#8 :: s.events }) ∧
    ((s.mcu m).cnt = 3#3 → exec (.selB3 m) s =
      .next { s with events := .slotRow m 5#4 0x20#8 0xDF#8 :: s.events }) ∧
    ((s.mcu m).cnt = 4#3 → exec (.selB4 m) s =
      .next { s with events := .slotRow m 4#4 0x10#8 0xEF#8 :: s.events }) ∧
    ((s.mcu m).cnt = 5#3 → exec (.selB5 m) s =
      .next { s with events := .slotRow m 3#4 0x08#8 0xF7#8 :: s.events }) ∧
    ((s.mcu m).cnt = 6#3 → exec (.selB6 m) s =
      .next { s with events := .slotRow m 2#4 0x04#8 0xFB#8 :: s.events }) ∧
    ((s.mcu m).cnt = 7#3 → exec (.selB7 m) s =
      .next { s with events := .slotRow m 1#4 0x02#8 0xFD#8 :: s.events })

/-- A row of the code table that is not the MCU's own slot word, and slot selection for the other role, show nothing and
change nothing: exactly one of SEL_A and SEL_B applies to an MCU (R56, R70, R71; the model's choice of log entry 2
for an operation that is not enabled). -/
def Obligations.OtherSlotRowsShowNothing : Prop :=
  ∀ (s : State) (m : McuId),
    ((s.mcu m).role ≠ .roleA → exec (.selA m) s = .next s) ∧
    ((s.mcu m).role ≠ .roleB → exec (.selB m) s = .next s) ∧
    ((s.mcu m).role ≠ .roleA ∨ (s.mcu m).cnt ≠ 0#3 → exec (.selA0 m) s = .next s) ∧
    ((s.mcu m).role ≠ .roleA ∨ (s.mcu m).cnt ≠ 1#3 → exec (.selA1 m) s = .next s) ∧
    ((s.mcu m).role ≠ .roleA ∨ (s.mcu m).cnt ≠ 2#3 → exec (.selA2 m) s = .next s) ∧
    ((s.mcu m).role ≠ .roleA ∨ (s.mcu m).cnt ≠ 3#3 → exec (.selA3 m) s = .next s) ∧
    ((s.mcu m).role ≠ .roleA ∨ (s.mcu m).cnt ≠ 4#3 → exec (.selA4 m) s = .next s) ∧
    ((s.mcu m).role ≠ .roleA ∨ (s.mcu m).cnt ≠ 5#3 → exec (.selA5 m) s = .next s) ∧
    ((s.mcu m).role ≠ .roleA ∨ (s.mcu m).cnt ≠ 6#3 → exec (.selA6 m) s = .next s) ∧
    ((s.mcu m).role ≠ .roleA ∨ (s.mcu m).cnt ≠ 7#3 → exec (.selA7 m) s = .next s) ∧
    ((s.mcu m).role ≠ .roleB ∨ (s.mcu m).cnt ≠ 0#3 → exec (.selB0 m) s = .next s) ∧
    ((s.mcu m).role ≠ .roleB ∨ (s.mcu m).cnt ≠ 1#3 → exec (.selB1 m) s = .next s) ∧
    ((s.mcu m).role ≠ .roleB ∨ (s.mcu m).cnt ≠ 2#3 → exec (.selB2 m) s = .next s) ∧
    ((s.mcu m).role ≠ .roleB ∨ (s.mcu m).cnt ≠ 3#3 → exec (.selB3 m) s = .next s) ∧
    ((s.mcu m).role ≠ .roleB ∨ (s.mcu m).cnt ≠ 4#3 → exec (.selB4 m) s = .next s) ∧
    ((s.mcu m).role ≠ .roleB ∨ (s.mcu m).cnt ≠ 5#3 → exec (.selB5 m) s = .next s) ∧
    ((s.mcu m).role ≠ .roleB ∨ (s.mcu m).cnt ≠ 6#3 → exec (.selB6 m) s = .next s) ∧
    ((s.mcu m).role ≠ .roleB ∨ (s.mcu m).cnt ≠ 7#3 → exec (.selB7 m) s = .next s)

/-- SEL_A: `IDX = zext_4(CNT)`, and nothing else changes (R70). That the value is shown as an event is the model's choice
(log entry 6, after R61). -/
def Obligations.SelAShowsTheCounter : Prop :=
  ∀ (s : State) (m : McuId), (s.mcu m).role = .roleA →
    exec (.selA m) s = .next { s with events := .index m ((s.mcu m).cnt.setWidth 4) :: s.events } ∧
    ((s.mcu m).cnt.setWidth 4).toNat = (s.mcu m).cnt.toNat

/-- SEL_B: `IDX = 8 - zext_4(CNT)`, the true difference, with no modulo, and nothing else changes (R71). That the value is
shown as an event is the model's choice (log entry 6, after R61). -/
def Obligations.SelBShowsEightMinusTheCounter : Prop :=
  ∀ (s : State) (m : McuId), (s.mcu m).role = .roleB →
    exec (.selB m) s = .next { s with events := .index m (8#4 - (s.mcu m).cnt.setWidth 4) :: s.events } ∧
    (8#4 - (s.mcu m).cnt.setWidth 4).toNat = 8 - (s.mcu m).cnt.toNat

/-- A turn of slot selection reads the MCU's own slot word and shows the row of the code table for it, whichever of
the sixteen it is (R56). That the row is shown as one event is the model's choice (log entry 6, after R61). -/
def Obligations.SlotTurnShowsTheOwnRow : Prop :=
  ∀ (s : State) (m : McuId) (rest : List Turn), s.turns = .slot m :: rest →
    step s = .next { s with
      turns := rest
      events := .slotRow m (indexOf (s.mcu m).role (s.mcu m).cnt) ((s.mcu m).intent s.cfg)
        ((s.mcu m).txword s.cfg) :: s.events }

/-- ENC: the bit of the claimed line index and no other, INTENT_OOR where the index is 8 (R80). That the value is shown as
an event is the model's choice (log entry 6, after R61). -/
def Obligations.EncShowsTheOneHotPattern : Prop :=
  ∀ (s : State) (m : McuId) (i : Idx), i = indexOf (s.mcu m).role (s.mcu m).cnt →
    exec (.enc m) s = .next { s with
      events := .intent m (if i ≤ 7#4 then (1#16 <<< i.toNat).setWidth 8 else s.cfg.intentOor) :: s.events }

/-- INV: `TXWORD = INTENT XOR 0xFF`, its own inverse (R81). That the value is shown as an event is the model's choice (log
entry 6, after R61). -/
def Obligations.InvShowsTheInvertedPattern : Prop :=
  ∀ (s : State) (m : McuId),
    exec (.inv m) s = .next { s with events := .txword m ((s.mcu m).intent s.cfg ^^^ 0xFF#8) :: s.events } ∧
    ∀ v : Byte, (v ^^^ 0xFF#8) ^^^ 0xFF#8 = v

/-- Line index 8 comes from ROLE_B at CNT = 0 alone; with INTENT_OOR = 0x00 the encoder is the truncated shift for all
sixteen indices, and ROLE_B then pulls no line; with another INTENT_OOR index 8 gives it (R57). That 9 to 15 give 0x00
whatever INTENT_OOR is follows R57, where the pseudocode of R80 reads otherwise: the model's choice (log entry 7). -/
def Obligations.IndexEightPullsNoLine : Prop :=
  (∀ r c, indexOf r c = 8#4 ↔ r = .roleB ∧ c = 0#3) ∧
  (∀ cfg : Config, encodeIndex cfg 8#4 = cfg.intentOor) ∧
  (∀ (cfg : Config) (i : Idx), 8#4 < i → encodeIndex cfg i = 0x00#8) ∧
  (∀ (cfg : Config) (i : Idx), cfg.intentOor = 0x00#8 →
    encodeIndex cfg i = (1#16 <<< i.toNat).setWidth 8 ∧ txw cfg .roleB 0#3 = 0xFF#8)

/-- The encoder as one function, with INTENT_OOR = 0x00: its formula, at most one 0 bit, 0xFF for ROLE_B at 0 alone,
the words the roles share, and no word twice for one role (R83). -/
def Obligations.TransmittedWordLaws : Prop :=
  ∀ cfg : Config, cfg.intentOor = 0x00#8 →
    (∀ r c, txw cfg r c = (1#16 <<< (indexOf r c).toNat).setWidth 8 ^^^ 0xFF#8) ∧
    (∀ r c, ~~~(txw cfg r c) &&& (~~~(txw cfg r c) - 1#8) = 0x00#8) ∧
    (∀ c, txw cfg .roleA c ≠ 0xFF#8) ∧
    (∀ c, txw cfg .roleB c = 0xFF#8 ↔ c = 0#3) ∧
    (∀ c d, txw cfg .roleA c = txw cfg .roleB d ↔ c.toNat + d.toNat = 8) ∧
    (∀ r c d, txw cfg r c = txw cfg r d → c = d)

/-- The claimed lines of the two roles meet exactly where the counters add to 8, so at equal counters exactly at 4; the
formula `7 - c` would never meet `c` (R74). -/
def Obligations.ClaimsMeetWhereCountersAddToEight : Prop :=
  (∀ c, indexOf .roleA c = indexOf .roleB c ↔ c = 4#3) ∧
  (indexOf .roleA 0#3 = 0#4 ∧ indexOf .roleB 0#3 = 8#4) ∧
  (∀ c d, indexOf .roleA c = indexOf .roleB d ↔ c.toNat + d.toNat = 8) ∧
  (∀ c : Count, c ≠ 7#3 - c)

/-! ### The bus -/

/-- A line is low exactly where one of the two MCUs pulls it (R36). -/
def Obligations.LineIsLowWhereAnyMcuPulls : Prop :=
  ∀ (s : State) (i : Nat), i < 8 →
    ((line s).getLsbD i = false ↔ s.mcu0.oe.getLsbD i = true ∨ s.mcu1.oe.getLsbD i = true)

/-- Contention gives a low line and nothing else: the line reads as it would if either MCU alone pulled it (R112). -/
def Obligations.ContentionIsInvisible : Prop :=
  ∀ (s : State) (m : McuId) (i : Nat), contended s i = true →
    (line s).getLsbD i = false ∧
    (line (s.setMcu m { s.mcu m with oe := 0x00#8 })).getLsbD i = (line s).getLsbD i

/-- Of either MCU, line `i` is the pin PIN_BASE + i with that MCU's own PIN_BASE, no two lines share a pin, and no line is
one of the two reserved pins (R34; one PIN_BASE for each MCU: log entry 21). -/
def Obligations.LinesAvoidTheReservedPins : Prop :=
  ∀ (cfg : Config) (m : McuId) (i j : Fin 8), cfg.wf →
    gpioOfLine cfg m i = cfg.pinBase m + i.val ∧
    (gpioOfLine cfg m i = gpioOfLine cfg m j → i = j) ∧
    gpioOfLine cfg m i ∉ reservedPins cfg m ∧
    reservedPins cfg m = [cfg.pinBase m - 2, cfg.pinBase m - 1] ∧ (reservedPins cfg m).Nodup

/-- The port reading of R96 adds no behaviour: SUBMIT is enabled exactly with tx_valid = tx_ready = 1, RETRIEVE exactly
with rx_valid = rx_ready = 1, the data ports carry TXWORD and the head of RXQ, the pads drive only 0, and the report port
carries what REPORT emits (R101). -/
def Obligations.PortsReadTheStepRules : Prop :=
  ∀ (s : State) (m : McuId) (x : Mcu), x = s.mcu m →
    submitEnabled s.cfg x = (txValid s.cfg x && txReady s.cfg x) ∧
    retrieveEnabled x = (rxValid x && rxReady x) ∧
    txData s.cfg x = x.txword s.cfg ∧
    (∀ v rest, x.rxq = v :: rest → rxData x = some v) ∧
    padOe x = x.oe ∧ padOut = 0x00#8 ∧ padIn s = line s ∧
    rptRole x = (match x.role with | .roleA => 0#1 | .roleB => 1#1) ∧
    rptDrv s.cfg x = x.txword s.cfg ∧ rptObs x = x.obsl

/-! ### The transfer -/

/-- SUBMIT, where it is enabled, pushes TXWORD and goes to PH_RETRIEVE; CNT, OE and the lines stay. Where it is not
enabled nothing changes (R90). -/
def Obligations.SubmitPushesTheWord : Prop :=
  ∀ (s : State) (m : McuId), (s.mcu m).rst = false →
    ((s.mcu m).ph = .submit → (s.mcu m).txq.length < s.cfg.txqDepth →
      ¬(s.cfg.hasCancel = true ∧ (s.mcu m).cancel = true) →
      exec (.submit m) s = .next (s.setMcu m { s.mcu m with
        txq := (s.mcu m).txq ++ [txw s.cfg (s.mcu m).role (s.mcu m).cnt], ph := .retrieve })) ∧
    ((s.mcu m).ph ≠ .submit ∨ s.cfg.txqDepth ≤ (s.mcu m).txq.length ∨
      (s.cfg.hasCancel = true ∧ (s.mcu m).cancel = true) →
      ∀ t, exec (.submit m) s = .next t → t = s)

/-- APPLY, where it is enabled, pops the oldest word, `OE <- NOT w`, goes to E_SETTLE and emits APPLY(m, w). Where it is
not enabled nothing changes (R92). -/
def Obligations.ApplyDrivesTheOldestWord : Prop :=
  ∀ (s : State) (m : McuId), (s.mcu m).rst = false →
    (∀ (w : Byte) (rest : List Byte), (s.mcu m).eph = .idle → (s.mcu m).txq = w :: rest →
      exec (.apply m) s = .next { s.setMcu m { s.mcu m with txq := rest, oe := ~~~w, eph := .settle } with
        events := .apply m w :: s.events }) ∧
    ((s.mcu m).eph = .settle ∨ (s.mcu m).txq = [] → ∀ t, exec (.apply m) s = .next t → t = s)

/-- The nine words with a row of their own: with the row's word at the head of TXQ and the engine idle, the row sets the
OE of the table and emits APPLY(m, w) (R92, R63 (b); the row as APPLY of that word alone: log entry 5). -/
def Obligations.DriveRowsSetTheirEnables : Prop :=
  ∀ (s : State) (m : McuId) (w : Byte) (rest : List Byte) (after : Byte → State),
    (s.mcu m).rst = false → (s.mcu m).eph = .idle → (s.mcu m).txq = w :: rest →
    (∀ oe, after oe = { s.setMcu m { s.mcu m with txq := rest, oe := oe, eph := .settle } with
      events := .apply m w :: s.events }) →
    (w = 0xFE#8 → exec (.drvL0 m) s = .next (after 0x01#8)) ∧
    (w = 0xFD#8 → exec (.drvL1 m) s = .next (after 0x02#8)) ∧
    (w = 0xFB#8 → exec (.drvL2 m) s = .next (after 0x04#8)) ∧
    (w = 0xF7#8 → exec (.drvL3 m) s = .next (after 0x08#8)) ∧
    (w = 0xEF#8 → exec (.drvL4 m) s = .next (after 0x10#8)) ∧
    (w = 0xDF#8 → exec (.drvL5 m) s = .next (after 0x20#8)) ∧
    (w = 0xBF#8 → exec (.drvL6 m) s = .next (after 0x40#8)) ∧
    (w = 0x7F#8 → exec (.drvL7 m) s = .next (after 0x80#8)) ∧
    (w = 0xFF#8 → exec (.drvNone m) s = .next (after 0x00#8))

/-- DRV_ANY: any word at all is accepted and every 0 bit pulls its line (R58; the row as APPLY of that word alone: log
entry 5). -/
def Obligations.DriveAnyPullsEveryZeroBit : Prop :=
  ∀ (s : State) (m : McuId) (w : Byte) (rest : List Byte),
    (s.mcu m).rst = false → (s.mcu m).eph = .idle → (s.mcu m).txq = w :: rest →
    exec (.drvAny m w) s = .next { s.setMcu m { s.mcu m with txq := rest, oe := ~~~w, eph := .settle } with
      events := .apply m w :: s.events }

/-- A turn of the pad driver does with the word at the head of TXQ what APPLY does, whichever of the 256 words it is
(R58, R92). -/
def Obligations.PadTurnAppliesTheHeadWord : Prop :=
  ∀ (s : State) (m : McuId) (w : Byte) (rest : List Byte) (later : List Turn),
    s.turns = .pads m :: later → (s.mcu m).rst = false → (s.mcu m).eph = .idle → (s.mcu m).txq = w :: rest →
    step s = .next { s.setMcu m { s.mcu m with txq := rest, oe := ~~~w, eph := .settle } with
      turns := later, events := .apply m w :: s.events }

/-- SAMPLE, where it is enabled, pushes the wired-AND of the two MCUs' words, goes to E_IDLE, keeps OE (releases it where
DRIVE_HOLD is false) and emits SAMPLE(m, v). Where it is not enabled nothing changes (R93). -/
def Obligations.SampleLatchesTheLines : Prop :=
  ∀ (s : State) (m : McuId), (s.mcu m).rst = false →
    ((s.mcu m).eph = .settle → (s.mcu m).rxq.length < s.cfg.rxqDepth →
      exec (.sample m) s = .next { s.setMcu m { s.mcu m with
          rxq := (s.mcu m).rxq ++ [~~~s.mcu0.oe &&& ~~~s.mcu1.oe], eph := .idle,
          oe := if s.cfg.driveHold = true then (s.mcu m).oe else 0x00#8 } with
        events := .sample m (~~~s.mcu0.oe &&& ~~~s.mcu1.oe) :: s.events }) ∧
    ((s.mcu m).eph = .idle ∨ s.cfg.rxqDepth ≤ (s.mcu m).rxq.length →
      ∀ t, exec (.sample m) s = .next t → t = s)

/-- RETRIEVE, where it is enabled, takes the oldest result out of RXQ into OBSL and goes to PH_REPORT. Where it is not
enabled nothing changes (R91). -/
def Obligations.RetrieveTakesTheOldestResult : Prop :=
  ∀ (s : State) (m : McuId), (s.mcu m).rst = false →
    (∀ (v : Byte) (rest : List Byte), (s.mcu m).ph = .retrieve → (s.mcu m).rxq = v :: rest →
      exec (.retrieve m) s = .next (s.setMcu m { s.mcu m with obsl := v, rxq := rest, ph := .report })) ∧
    ((s.mcu m).ph ≠ .retrieve ∨ (s.mcu m).rxq = [] → ∀ t, exec (.retrieve m) s = .next t → t = s)

/-- The isolation law: with the peer's lines released, what an MCU samples after applying its word is that word (R41). -/
def Obligations.IsolatedSampleIsTheOwnWord : Prop :=
  ∀ (s : State) (m : McuId),
    (s.mcu m).rst = false → (s.mcu m).eph = .settle → (s.mcu m).rxq.length < s.cfg.rxqDepth →
    (s.mcu m).oe = (s.mcu m).intent s.cfg → (s.mcu m.peer).oe = 0x00#8 →
    ∃ t, exec (.sample m) s = .next t ∧
      (t.mcu m).rxq = (s.mcu m).rxq ++ [(s.mcu m).txword s.cfg]

/-- The composition law: where both MCUs apply before either samples, whichever applies first and whichever samples first,
both sample `D_A AND D_B`, with the drive held (R40, DRIVE_HOLD = true). -/
def Obligations.SameTickSamplesCompose : Prop :=
  ∀ (s : State) (m : McuId) (d e : Byte) (qd qe : List Byte),
    s.cfg.driveHold = true →
    (s.mcu m).rst = false → (s.mcu m).eph = .idle → (s.mcu m).txq = d :: qd →
    (s.mcu m).rxq.length < s.cfg.rxqDepth →
    (s.mcu m.peer).rst = false → (s.mcu m.peer).eph = .idle → (s.mcu m.peer).txq = e :: qe →
    (s.mcu m.peer).rxq.length < s.cfg.rxqDepth →
    ∀ applies ∈ [[Instr.apply m, .apply m.peer], [.apply m.peer, .apply m]],
    ∀ samples ∈ [[Instr.sample m, .sample m.peer], [.sample m.peer, .sample m]],
    ∃ t, execAll (applies ++ samples) s = .next t ∧
      (t.mcu m).rxq = (s.mcu m).rxq ++ [d &&& e] ∧
      (t.mcu m.peer).rxq = (s.mcu m.peer).rxq ++ [d &&& e]

/-- A sample and a change of the peer's drive: the sample sees the peer's word before the change or the one after it,
as the two are ordered, and never a third value (R136). -/
def Obligations.SampleSeesPeerBeforeOrAfter : Prop :=
  ∀ (s : State) (m : McuId) (w : Byte) (q : List Byte),
    (s.mcu m).rst = false → (s.mcu m).eph = .settle → (s.mcu m).rxq.length < s.cfg.rxqDepth →
    (s.mcu m.peer).rst = false → (s.mcu m.peer).eph = .idle → (s.mcu m.peer).txq = w :: q →
    (∃ t, execAll [.sample m, .apply m.peer] s = .next t ∧
      (t.mcu m).rxq = (s.mcu m).rxq ++ [~~~(s.mcu m).oe &&& ~~~(s.mcu m.peer).oe]) ∧
    (∃ t, execAll [.apply m.peer, .sample m] s = .next t ∧
      (t.mcu m).rxq = (s.mcu m).rxq ++ [~~~(s.mcu m).oe &&& w])

/-- An operation that is not enabled does not happen and its agent waits: the state stays as it is (R90 to R93, R101 to
R103; the model's choice of log entry 2: a turn that waits is a step that changes nothing). -/
def Obligations.OperationsNotEnabledWait : Prop :=
  ∀ (s : State) (m : McuId), (s.mcu m).rst = false →
    ((s.mcu m).ph ≠ .submit ∨ s.cfg.txqDepth ≤ (s.mcu m).txq.length ∨
      (s.cfg.hasCancel = true ∧ (s.mcu m).cancel = true) →
      exec (.submit m) s = .next s ∧ exec (.runCycle m) s = .next s) ∧
    ((s.mcu m).eph = .settle ∨ (s.mcu m).txq = [] → exec (.apply m) s = .next s) ∧
    ((s.mcu m).eph = .idle ∨ s.cfg.rxqDepth ≤ (s.mcu m).rxq.length → exec (.sample m) s = .next s) ∧
    ((s.mcu m).ph ≠ .retrieve ∨ (s.mcu m).rxq = [] → exec (.retrieve m) s = .next s) ∧
    ((s.mcu m).ph ≠ .report → exec (.report m) s = .next s) ∧
    ((s.mcu m).ph ≠ .advance → exec (.advance m) s = .next s) ∧
    ((s.mcu m).ph ≠ .submit ∨ s.cfg.hasCancel = false ∨ (s.mcu m).cancel = false →
      exec (.cancel m) s = .next s) ∧
    (∀ w, (s.mcu m).eph = .settle ∨ (s.mcu m).txq.head? ≠ some w → exec (.drvAny m w) s = .next s) ∧
    (∀ p ∈ [(0xFE#8, Instr.drvL0 m), (0xFD#8, .drvL1 m), (0xFB#8, .drvL2 m), (0xF7#8, .drvL3 m),
        (0xEF#8, .drvL4 m), (0xDF#8, .drvL5 m), (0xBF#8, .drvL6 m), (0x7F#8, .drvL7 m), (0xFF#8, .drvNone m)],
      (s.mcu m).eph = .settle ∨ (s.mcu m).txq.head? ≠ some p.1 → exec p.2 s = .next s)

/-! ### Report, counter and sequencer -/

/-- DELAY_A has no effect: no state is read or written (R100). -/
def Obligations.DelayHasNoEffect : Prop :=
  ∀ (s : State) (m : McuId), exec (.delayA m) s = .next s

/-- REPORT in PH_REPORT emits (role, TXWORD, OBSL) of its own iteration and goes to PH_ADVANCE; the content of OBSL after
it is left open, as the rule leaves it. In every other phase nothing changes (R101). -/
def Obligations.ReportEmitsTheTriple : Prop :=
  ∀ (s : State) (m : McuId), (s.mcu m).rst = false →
    ((s.mcu m).ph = .report →
      ∃ latch, exec (.report m) s = .next { s.setMcu m { s.mcu m with ph := .advance, obsl := latch } with
        events := .report m (s.mcu m).role (txw s.cfg (s.mcu m).role (s.mcu m).cnt) (s.mcu m).obsl :: s.events }) ∧
    ((s.mcu m).ph ≠ .report → ∀ t, exec (.report m) s = .next t → t = s)

/-- ADVANCE in PH_ADVANCE: `CNT <- (CNT + 1) mod 8`, PH_SUBMIT. In every other phase nothing changes (R102). -/
def Obligations.AdvanceStepsTheCounter : Prop :=
  ∀ (s : State) (m : McuId), (s.mcu m).rst = false →
    ((s.mcu m).ph = .advance →
      exec (.advance m) s = .next (s.setMcu m { s.mcu m with
        cnt := BitVec.ofNat 3 (((s.mcu m).cnt.toNat + 1) % 8), ph := .submit })) ∧
    ((s.mcu m).ph ≠ .advance → ∀ t, exec (.advance m) s = .next t → t = s)

/-- CANCEL: with HAS_CANCEL and cancel = 1 in PH_SUBMIT the arbiter halts; CNT, OE and the queues stay, and SUBMIT is not
enabled. Without HAS_CANCEL, with cancel = 0 or in another phase nothing changes. In PH_HALT no operation of the
arbiter changes anything (R103). -/
def Obligations.CancelHaltsTheArbiter : Prop :=
  ∀ (s : State) (m : McuId), (s.mcu m).rst = false →
    (s.cfg.hasCancel = true → (s.mcu m).ph = .submit → (s.mcu m).cancel = true →
      exec (.cancel m) s = .next (s.setMcu m { s.mcu m with ph := .halt }) ∧
      ∀ t, exec (.submit m) s = .next t → t = s) ∧
    (s.cfg.hasCancel = false ∨ (s.mcu m).ph ≠ .submit ∨ (s.mcu m).cancel = false →
      ∀ t, exec (.cancel m) s = .next t → t = s) ∧
    ((s.mcu m).ph = .halt → ∀ i ∈ [Instr.submit m, .retrieve m, .report m, .advance m, .cancel m],
      ∀ t, exec i s = .next t → t = s)

/-- RUNCYCLE from PH_SUBMIT with nothing in flight, whatever the peer does in between (R106). While its engine goes on it
ends in PH_ADVANCE with the counter kept; it emits APPLY(m, w), SAMPLE(m, v) and the report, and returns (w, v), where
w is TXW(role, c) and v is w ANDed with the word the peer shows in the state `seen`, in which the sample is taken. Where its
engine gives no result, or takes no word, it is left waiting in PH_RETRIEVE without a sample, a report or a result. All
other events are the peer's. That the progress of the engine is a field of the state is the model's choice (log entry
8), that OBSL keeps its value after REPORT is log entry 3. -/
def Obligations.RunCycleReturnsWordAndPattern : Prop :=
  ∀ (s : State) (m : McuId) (w v : Byte) (seen : State),
    (s.mcu m).rst = false → (s.mcu m).ph = .submit → (s.mcu m).eph = .idle →
    (s.mcu m).txq = [] → (s.mcu m).rxq = [] → 1 ≤ s.cfg.txqDepth → 1 ≤ s.cfg.rxqDepth →
    ¬(s.cfg.hasCancel = true ∧ (s.mcu m).cancel = true) →
    w = txw s.cfg (s.mcu m).role (s.mcu m).cnt →
    seen = peerGap m (apply m (peerGap m (submit m s))) →
    v = w &&& (seen.mcu m.peer).shown →
    ∃ t last between first, exec (.runCycle m) s = .next t ∧ t.cfg = s.cfg ∧ t.turns = s.turns ∧
      (∀ e ∈ last ++ between ++ first, e.mcu = m.peer) ∧
      match (s.mcu m).progress with
      | .goesOn =>
        t.mcu m = { s.mcu m with
          ph := .advance, obsl := v,
          oe := if s.cfg.driveHold = true then intentOf s.cfg (s.mcu m).role (s.mcu m).cnt else 0x00#8 } ∧
        t.events = .result m w v :: .report m (s.mcu m).role w v :: last ++ .sample m v :: between ++
          .apply m w :: first ++ s.events
      | .givesNoResult =>
        t.mcu m = { s.mcu m with
          ph := .retrieve, eph := .settle, oe := intentOf s.cfg (s.mcu m).role (s.mcu m).cnt } ∧
        t.events = last ++ between ++ .apply m w :: first ++ s.events
      | .takesNoWord =>
        t.mcu m = { s.mcu m with ph := .retrieve, txq := [w] } ∧
        t.events = last ++ between ++ first ++ s.events

/-- RUNCYCLE with the peer held in reset and its lines released returns (w, w) while its engine goes on, for both roles and
every counter value: the end-to-end scenario (R41, R106; the progress of the engine: log entry 8). -/
def Obligations.IsolatedRunCycleReturnsItsWord : Prop :=
  ∀ (s : State) (m : McuId),
    (s.mcu m).rst = false → (s.mcu m).ph = .submit → (s.mcu m).eph = .idle →
    (s.mcu m).txq = [] → (s.mcu m).rxq = [] → s.cfg.wf → (s.mcu m).progress = .goesOn →
    ¬(s.cfg.hasCancel = true ∧ (s.mcu m).cancel = true) →
    (s.mcu m.peer).rst = true → (s.mcu m.peer).oe = 0x00#8 → s.cfg.resetOe = 0x00#8 →
    ∃ t, exec (.runCycle m) s = .next t ∧ (t.mcu m).ph = .advance ∧
      t.events.head? = some (.result m (txw s.cfg (s.mcu m).role (s.mcu m).cnt)
        (txw s.cfg (s.mcu m).role (s.mcu m).cnt))

/-- One iteration with the peer's drive as it stands: its operations in order, from PH_SUBMIT with nothing in flight, end
in PH_SUBMIT with CNT one further; the engine's two events and one report are emitted, in that order (R38, R104). That
OBSL keeps its value after REPORT is the model's choice (log entry 3). -/
def Obligations.IterationRunsInOrder : Prop :=
  ∀ (s : State) (m : McuId) (w v : Byte),
    (s.mcu m).rst = false → (s.mcu m).ph = .submit → (s.mcu m).eph = .idle →
    (s.mcu m).txq = [] → (s.mcu m).rxq = [] → 1 ≤ s.cfg.txqDepth → 1 ≤ s.cfg.rxqDepth →
    ¬(s.cfg.hasCancel = true ∧ (s.mcu m).cancel = true) →
    w = (s.mcu m).txword s.cfg → v = w &&& ~~~(s.mcu m.peer).oe →
    execAll [.submit m, .apply m, .sample m, .retrieve m, .report m, .advance m] s =
      .next { s.setMcu m { s.mcu m with
          cnt := (s.mcu m).cnt + 1#3, obsl := v,
          oe := if s.cfg.driveHold = true then (s.mcu m).intent s.cfg else 0x00#8 } with
        events := .report m (s.mcu m).role w v :: .sample m v :: .apply m w :: s.events }

/-- After k iterations the counter is k further, modulo 8, and the arbiter is at the top of an iteration again; from
reset it is `k mod 8`, and the claimed index of the next iteration is that of R73 (R73, R107). -/
def Obligations.CounterAfterIterations : Prop :=
  ∀ (k : Nat) (s : State) (m : McuId),
    (s.mcu m).rst = false → (s.mcu m).ph = .submit → (s.mcu m).eph = .idle →
    (s.mcu m).txq = [] → (s.mcu m).rxq = [] → 1 ≤ s.cfg.txqDepth → 1 ≤ s.cfg.rxqDepth →
    ¬(s.cfg.hasCancel = true ∧ (s.mcu m).cancel = true) → (s.mcu m).cnt = 0#3 →
    ∃ t, execAll (List.replicate k
        [Instr.submit m, .apply m, .sample m, .retrieve m, .report m, .advance m]).flatten s = .next t ∧
      (t.mcu m).cnt.toNat = k % 8 ∧ (t.mcu m).ph = .submit ∧
      (indexOf .roleA (t.mcu m).cnt).toNat = k % 8 ∧ (indexOf .roleB (t.mcu m).cnt).toNat = 8 - k % 8

/-- The sequencer's table: in each phase the turn of the arbiter is the one operation the table names; in PH_SUBMIT
cancel beats SUBMIT, and in PH_HALT there is none (R104). The turn of the engine is APPLY in E_IDLE and SAMPLE in
E_SETTLE (R92, R93). That a turn of the halted arbiter is a step that changes nothing is the model's choice (log
entry 2). -/
def Obligations.AgentTurnsFollowThePhases : Prop :=
  ∀ (s : State) (m : McuId) (rest : List Turn) (u : State), u = { s with turns := rest } →
    (s.turns = .agent m .engine :: rest →
      ((s.mcu m).eph = .idle → step s = exec (.apply m) u) ∧
      ((s.mcu m).eph = .settle → step s = exec (.sample m) u)) ∧
    (s.turns = .agent m .arbiter :: rest →
      ((s.mcu m).ph = .submit → ¬(s.cfg.hasCancel = true ∧ (s.mcu m).cancel = true) →
        step s = exec (.submit m) u) ∧
      ((s.mcu m).ph = .submit → s.cfg.hasCancel = true → (s.mcu m).cancel = true →
        step s = exec (.cancel m) u) ∧
      ((s.mcu m).ph = .retrieve → step s = exec (.retrieve m) u) ∧
      ((s.mcu m).ph = .report → step s = exec (.report m) u) ∧
      ((s.mcu m).ph = .advance → step s = exec (.advance m) u) ∧
      ((s.mcu m).ph = .halt → step s = .next u))

/-- How PH can change: only as the table of R104 says, with its condition and its other writes, or by the reset of the MCU;
PH_HALT is left by reset alone (R103, R104). The MCU's own RUNCYCLE goes through the rows from SUBMIT on: to PH_ADVANCE, or
to PH_RETRIEVE where it is left waiting (R106). What a RUNCYCLE does to the other MCU is in `PeerRegistersAreUntouched`. -/
def Obligations.PhaseChangesAreThoseOfTheTable : Prop :=
  ∀ (s t : State) (i : Instr) (m : McuId), i ≠ .runCycle m.peer → exec i s = .next t →
    (t.mcu m).ph = (s.mcu m).ph ∨
    ((s.mcu m).rst = true ∧ (t.mcu m).ph = .submit) ∨
    ((s.mcu m).ph = .submit ∧ (s.mcu m).txq.length < s.cfg.txqDepth ∧
      ¬(s.cfg.hasCancel = true ∧ (s.mcu m).cancel = true) ∧
      ((i = .submit m ∧ (t.mcu m).ph = .retrieve ∧ (t.mcu m).txq = (s.mcu m).txq ++ [(s.mcu m).txword s.cfg]) ∨
        (i = .runCycle m ∧ (t.mcu m).ph = .retrieve ∧ (t.mcu m).rxq = []) ∨
        (i = .runCycle m ∧ (t.mcu m).ph = .advance))) ∨
    ((s.mcu m).ph = .submit ∧ (t.mcu m).ph = .halt ∧ i = .cancel m ∧
      s.cfg.hasCancel = true ∧ (s.mcu m).cancel = true) ∨
    ((s.mcu m).ph = .retrieve ∧ (t.mcu m).ph = .report ∧ i = .retrieve m ∧
      (s.mcu m).rxq = (t.mcu m).obsl :: (t.mcu m).rxq) ∨
    ((s.mcu m).ph = .report ∧ (t.mcu m).ph = .advance ∧ i = .report m) ∨
    ((s.mcu m).ph = .advance ∧ (t.mcu m).ph = .submit ∧ i = .advance m ∧
      (t.mcu m).cnt = (s.mcu m).cnt + 1#3)

/-! ### Who writes which register -/

/-- CNT is written by ADVANCE and by reset, by nothing else; the MCU's own RUNCYCLE keeps it (R12, R106). What a RUNCYCLE
does to the other MCU is in `PeerRegistersAreUntouched`. -/
def Obligations.CounterIsWrittenByAdvanceAlone : Prop :=
  ∀ (s t : State) (i : Instr) (m : McuId), i ≠ .runCycle m.peer → exec i s = .next t →
    (t.mcu m).cnt = (s.mcu m).cnt ∨
    (i = .advance m ∧ (t.mcu m).cnt = (s.mcu m).cnt + 1#3) ∨
    ((s.mcu m).rst = true ∧ (t.mcu m).cnt = 0#3)

/-- OBSL is written by RETRIEVE alone, while the MCU is not in reset: as an operation of its own, or as the one a RUNCYCLE
takes on its way to PH_ADVANCE (R16, R106). What a RUNCYCLE does to the other MCU is in `PeerRegistersAreUntouched`. -/
def Obligations.LatchIsWrittenByRetrieveAlone : Prop :=
  ∀ (s t : State) (i : Instr) (m : McuId), i ≠ .runCycle m.peer → exec i s = .next t → (s.mcu m).rst = false →
    (t.mcu m).obsl = (s.mcu m).obsl ∨
    (i = .retrieve m ∧ (s.mcu m).rxq = (t.mcu m).obsl :: (t.mcu m).rxq) ∨
    (i = .runCycle m ∧ (s.mcu m).ph = .submit ∧ (t.mcu m).ph = .advance)

/-- With DRIVE_HOLD, OE keeps its value until the next APPLY or reset: an operation of the arbiter, a sample, a stall and
everything the peer does leave it; a RUNCYCLE changes it only by its own APPLY (R19, R139, R106). What a RUNCYCLE does to
the other MCU is in `PeerRegistersAreUntouched`. -/
def Obligations.DriveIsHeldUntilTheNextApply : Prop :=
  ∀ (s t : State) (i : Instr) (m : McuId), i ≠ .runCycle m.peer → exec i s = .next t →
    s.cfg.driveHold = true → (s.mcu m).rst = false →
    (t.mcu m).oe = (s.mcu m).oe ∨
    (i.mcu = m ∧ (s.mcu m).eph = .idle ∧ (t.mcu m).eph = .settle ∧
      (s.mcu m).txq = ~~~(t.mcu m).oe :: (t.mcu m).txq) ∨
    (i = .runCycle m ∧ (s.mcu m).eph = .idle ∧
      ∃ rest, (s.mcu m).txq ++ [(s.mcu m).txword s.cfg] = ~~~(t.mcu m).oe :: rest)

/-- An operation of one MCU that is no composite leaves every register, queue and input of the other as it is; nothing
is shared but the lines (R30, R39, R120). In a RUNCYCLE the other MCU changes only by operations of its own two agents:
whatever is kept by each of these is kept by the RUNCYCLE (R106). -/
def Obligations.PeerRegistersAreUntouched : Prop :=
  (∀ (s t : State) (i : Instr), composite i = false → exec i s = .next t →
    t.mcu i.mcu.peer = s.mcu i.mcu.peer) ∧
  (∀ (s t : State) (m : McuId) (kept : Mcu → Prop), exec (.runCycle m) s = .next t →
    (∀ (u v : State), u.cfg = s.cfg → kept (u.mcu m.peer) →
      ∀ i ∈ [Instr.submit m.peer, .retrieve m.peer, .report m.peer, .advance m.peer, .cancel m.peer,
        .apply m.peer, .sample m.peer], exec i u = .next v → kept (v.mcu m.peer)) →
    kept (s.mcu m.peer) → kept (t.mcu m.peer))

/-- What an operation, the composite RUNCYCLE among them, does to its own CNT, PH, TXQ, OE, EPH and inputs depends on the
MCU's own registers and the parameters alone: nothing waits for the peer and nothing is learned of it but a sampled value
(R39). -/
def Obligations.OwnControlDependsOnOwnRegisters : Prop :=
  ∀ (s t s' t' : State) (i : Instr), s.cfg = t.cfg → s.mcu i.mcu = t.mcu i.mcu →
    exec i s = .next s' → exec i t = .next t' → SameMcuControl (s'.mcu i.mcu) (t'.mcu i.mcu)

/-! ### Reset and the whole machine -/

/-- The state after reset, MCU by MCU (R24), the lines (R36), and which MCU has which role (R10, log entry 17); resetting one
MCU sets its rows, keeps its ROLE and leaves the other untouched (R24; OE is the parameter of log entry 10). OBSL is left
open. -/
def Obligations.ResetLeavesTheStatedValues : Prop :=
  (∀ m, (State.reset.mcu m).cnt = 0#3 ∧ (State.reset.mcu m).ph = .submit ∧ (State.reset.mcu m).txq = [] ∧
    (State.reset.mcu m).rxq = [] ∧ (State.reset.mcu m).oe = 0x00#8 ∧ (State.reset.mcu m).eph = .idle) ∧
  line State.reset = 0xFF#8 ∧ State.reset.mcu0.role = .roleA ∧ State.reset.mcu1.role = .roleB ∧
  ∀ (s : State) (m : McuId), InReset s.cfg ((resetMcu m s).mcu m) ∧
    ((resetMcu m s).mcu m).role = (s.mcu m).role ∧ (resetMcu m s).mcu m.peer = s.mcu m.peer

/-- Asserting the reset input puts the MCU into the reset state, drops its transfer in flight, keeps ROLE, and leaves the
peer and the history as they are; releasing it changes that input alone (R130, R24; OE is the parameter of log entry
10, the level of an input is held: log entry 16). -/
def Obligations.ResetInputResetsOneMcu : Prop :=
  ∀ (s : State) (m : McuId) (rest : List Turn),
    (s.turns = .rst m true :: rest →
      ∃ t, step s = .next t ∧ InReset s.cfg (t.mcu m) ∧ (t.mcu m).rst = true ∧
        (t.mcu m).role = (s.mcu m).role ∧ (t.mcu m).cancel = (s.mcu m).cancel ∧
        (t.mcu m).progress = (s.mcu m).progress ∧
        t.mcu m.peer = s.mcu m.peer ∧ t.cfg = s.cfg ∧ t.events = s.events ∧ t.turns = rest ∧ t.draws = s.draws) ∧
    (s.turns = .rst m false :: rest →
      step s = .next { s.setMcu m { s.mcu m with rst := false } with turns := rest })

/-- "Reset wins over any step in the same clock": while reset is asserted every operation of the arbiter or the engine
leaves the MCU in the reset state, emits nothing and leaves the peer alone (R130, R114). -/
def Obligations.ResetBeatsEveryStep : Prop :=
  ∀ (s : State) (m : McuId) (w : Byte), (s.mcu m).rst = true →
    ∀ i ∈ [Instr.submit m, .retrieve m, .apply m, .sample m, .report m, .advance m, .cancel m, .runCycle m,
      .drvL0 m, .drvL1 m, .drvL2 m, .drvL3 m, .drvL4 m, .drvL5 m, .drvL6 m, .drvL7 m, .drvNone m, .drvAny m w],
    ∃ t, exec i s = .next t ∧ InReset s.cfg (t.mcu m) ∧ t.mcu m.peer = s.mcu m.peer ∧ t.events = s.events

/-- After the release of reset the first operation is SUBMIT of TXW(ROLE, 0): 0xFE for ROLE_A, and with INTENT_OOR = 0x00
0xFF for ROLE_B (R130). -/
def Obligations.FirstWordAfterReset : Prop :=
  ∀ (s : State) (m : McuId) (rest : List Turn),
    s.turns = .rst m true :: .rst m false :: .agent m .arbiter :: rest →
    1 ≤ s.cfg.txqDepth → s.cfg.hasCancel = false → s.cfg.intentOor = 0x00#8 →
    ∃ t u v, step s = .next t ∧ step t = .next u ∧ step u = .next v ∧
      (v.mcu m).ph = .retrieve ∧
      (v.mcu m).txq = [match (s.mcu m).role with | .roleA => 0xFE#8 | .roleB => 0xFF#8]

/-- The cancel input changes that input alone (R103; the environment of R10; the level is held: log entry 16), and an
engine that stops or goes on changes that field alone (R95 (d), log entry 8). -/
def Obligations.CancelInputChangesNothingElse : Prop :=
  ∀ (s : State) (m : McuId) (rest : List Turn),
    (∀ level : Bool, s.turns = .cancel m level :: rest →
      step s = .next { s.setMcu m { s.mcu m with cancel := level } with turns := rest }) ∧
    (∀ p : Progress, s.turns = .progress m p :: rest →
      step s = .next { s.setMcu m { s.mcu m with progress := p } with turns := rest })

/-- A step runs the decoded operation: the next turn is the first one given from outside, else one drawn from the
schedule; the code it reads decides the operation, which runs on the state without that turn; a turn that reads no
code is the environment's or a wait (R7, R10, R63). -/
def Obligations.StepRunsTheDecodedInstr : Prop :=
  (∀ (s : State) (t : Turn) (rest : List Turn), s.turns = t :: rest →
    nextTurn s = (t, { s with turns := rest })) ∧
  (∀ s : State, s.turns = [] → nextTurn s = (Config.schedule s.draws, { s with draws := s.draws + 1 })) ∧
  (∀ (s : State) (m : McuId) (c : Code) (i : Instr),
    fetchCode (nextTurn s).1 (nextTurn s).2 = some (m, c) → decode m c = .ok i →
    step s = exec i (nextTurn s).2) ∧
  (∀ s : State, fetchCode (nextTurn s).1 (nextTurn s).2 = none →
    step s = .next (idleTurn (nextTurn s).1 (nextTurn s).2))

/-- No step faults and none is refused: every operation of every schedule ends in a next state (R110). That a turn whose
operation is not enabled answers a next state too is the model's choice (log entry 2). -/
def Obligations.EveryStepAnswersNext : Prop :=
  ∀ s : State, ∃ t, step s = .next t

/-- The parameters and both roles never change (R11, R21). -/
def Obligations.ParametersAndRolesNeverChange : Prop :=
  ∀ (s t : State), step s = .next t → t.cfg = s.cfg ∧ ∀ m, (t.mcu m).role = (s.mcu m).role

/-- Nothing that was emitted is taken back: the `emits` of 00_scope.md section 6 as a history. The history is the model's own
field (log entry 13). -/
def Obligations.EventsAreOnlyAdded : Prop :=
  ∀ (s t : State), step s = .next t → ∃ new, t.events = new ++ s.events

/-- The state after reset meets the invariant of R25. -/
def Obligations.ResetMeetsTheInvariant : Prop := SystemInv State.reset

/-- Every step keeps the invariant of R25: one transfer in flight exactly in PH_RETRIEVE, the word in TXQ the iteration's
own, the pads at an INTENT of the role or released, PH_HALT only with HAS_CANCEL, reset held in the reset state. -/
def Obligations.EveryStepKeepsTheInvariant : Prop :=
  ∀ (s t : State), SystemInv s → step s = .next t → SystemInv t

/-- An MCU pulls at most one line low at any time, where the invariant holds and the parameters are the spec's own
(R25 (b)). -/
def Obligations.AtMostOneLinePulledLow : Prop :=
  ∀ (s : State) (m : McuId), SystemInv s → s.cfg.decided →
    (s.mcu m).oe &&& ((s.mcu m).oe - 1#8) = 0x00#8

/-- Observed values are never fed back: two systems that differ only in the results waiting in RXQ, in OBSL and in what
was emitted still differ only so after any step of any schedule (R105). -/
def Obligations.ObservedValuesAreNeverFedBack : Prop :=
  ∀ (s t s' t' : State), SameControl s t → step s = .next s' → step t = .next t' → SameControl s' t'

/-- A stall: while an arbiter waits on its engine and the engine takes no step, no run of operations of the two MCUs changes
any register of the stalled MCU, so it goes on pulling its last line; and every such run answers a next state (R111,
R139). A RUNCYCLE of the stalled MCU waits too; one of the peer may stand in the run while the stalled engine has stopped
(log entry 8). That an operation which is not enabled answers a next state is the model's choice (log entry 2). -/
def Obligations.StalledArbiterStaysWhereItIs : Prop :=
  ∀ (l : List Instr) (s : State) (m : McuId), (s.mcu m).rst = false → Waiting s.cfg (s.mcu m) →
    (∀ i ∈ l, (i.mcu = m → engineStep i = false) ∧ (i = .runCycle m.peer → engineGoes (s.mcu m) = false)) →
    ∃ t, execAll l s = .next t ∧ t.mcu m = s.mcu m
end

