-- ==== Sys2Proof/Laws/State.lean ====
section
/-! SUPPORT. The small laws of the state: one lemma per field per update, so that no later proof unfolds a record
update. -/

namespace Sys2Proof

@[simp] theorem McuId.peer_peer (m : McuId) : m.peer.peer = m := by cases m <;> rfl
@[simp] theorem McuId.peer_ne (m : McuId) : m.peer ≠ m := by cases m <;> simp [McuId.peer]
@[simp] theorem McuId.ne_peer (m : McuId) : m ≠ m.peer := by cases m <;> simp [McuId.peer]

theorem McuId.eq_or_peer (m n : McuId) : n = m ∨ n = m.peer := by cases m <;> cases n <;> simp [McuId.peer]

namespace Machine

variable (s : State) (m n : McuId) (x y : Mcu) (e : Event)

@[simp] theorem mcu_m0 : s.mcu .m0 = s.mcu0 := rfl
@[simp] theorem mcu_m1 : s.mcu .m1 = s.mcu1 := rfl

@[simp] theorem setMcu_mcu : (s.setMcu m x).mcu m = x := by cases m <;> rfl
@[simp] theorem setMcu_mcu_peer : (s.setMcu m x).mcu m.peer = s.mcu m.peer := by cases m <;> rfl
@[simp] theorem setMcu_peer_mcu : (s.setMcu m.peer x).mcu m = s.mcu m := by cases m <;> rfl
theorem setMcu_mcu_ne {m n : McuId} (h : n ≠ m) : (s.setMcu m x).mcu n = s.mcu n := by
  cases m <;> cases n <;> first | rfl | exact absurd rfl h
@[simp] theorem setMcu_cfg : (s.setMcu m x).cfg = s.cfg := by cases m <;> rfl
@[simp] theorem setMcu_events : (s.setMcu m x).events = s.events := by cases m <;> rfl
@[simp] theorem setMcu_turns : (s.setMcu m x).turns = s.turns := by cases m <;> rfl
@[simp] theorem setMcu_draws : (s.setMcu m x).draws = s.draws := by cases m <;> rfl
@[simp] theorem setMcu_setMcu : (s.setMcu m x).setMcu m y = s.setMcu m y := by cases m <;> rfl
@[simp] theorem setMcu_self : s.setMcu m (s.mcu m) = s := by cases m <;> rfl

@[simp] theorem emit_cfg : (emit e s).cfg = s.cfg := rfl
@[simp] theorem emit_mcu : (emit e s).mcu m = s.mcu m := by cases m <;> rfl
@[simp] theorem emit_mcu0 : (emit e s).mcu0 = s.mcu0 := rfl
@[simp] theorem emit_mcu1 : (emit e s).mcu1 = s.mcu1 := rfl
@[simp] theorem emit_events : (emit e s).events = e :: s.events := rfl
@[simp] theorem emit_turns : (emit e s).turns = s.turns := rfl
@[simp] theorem emit_draws : (emit e s).draws = s.draws := rfl

/-- An update of other fields leaves the MCUs. -/
@[simp] theorem mk_mcu (c : Config) (l : List Event) (ts : List Turn) (k : Nat) :
    (State.mk c s.mcu0 s.mcu1 l ts k).mcu m = s.mcu m := by cases m <;> rfl

/-- Two states are equal when every field and every MCU is. -/
theorem State.ext_mcu {s t : State} (hc : s.cfg = t.cfg) (hm : ∀ m, s.mcu m = t.mcu m)
    (he : s.events = t.events) (ht : s.turns = t.turns) (hd : s.draws = t.draws) : s = t := by
  have h0 := hm .m0
  have h1 := hm .m1
  cases s; cases t
  simp_all

end Machine
end Sys2Proof
end

