-- ==== Sys2Proof/Laws/Ops.lean ====
section
/-! SUPPORT. What the shared operations can do, said once: which registers of its own MCU an operation writes
(`…_mcu`), that it touches nothing of the peer (`OwnFrame`), and the list of all changes an operation can make to
its MCU (`RowStep`, `exec_row`). -/

namespace Sys2Proof.Machine

/-- The registers after reset of an MCU (R24). -/
def resetRow (cfg : Config) (x : Mcu) : Mcu :=
  { x with cnt := 0#3, ph := .submit, obsl := 0x00#8, txq := [], rxq := [], oe := cfg.resetOe, eph := .idle }

/-- What an operation of MCU `m` leaves alone: parameters, turns, draws, all of the peer, the inputs and the engine's
progress. It only adds events, and only its own. -/
structure OwnFrame (m : McuId) (s t : State) : Prop where
  cfg : t.cfg = s.cfg
  turns : t.turns = s.turns
  draws : t.draws = s.draws
  peer : t.mcu m.peer = s.mcu m.peer
  role : (t.mcu m).role = (s.mcu m).role
  rst : (t.mcu m).rst = (s.mcu m).rst
  cancel : (t.mcu m).cancel = (s.mcu m).cancel
  progress : (t.mcu m).progress = (s.mcu m).progress
  events : ∃ l, t.events = l ++ s.events ∧ ∀ e ∈ l, e.mcu = m

theorem OwnFrame.refl (m : McuId) (s : State) : OwnFrame m s s :=
  ⟨rfl, rfl, rfl, rfl, rfl, rfl, rfl, rfl, [], rfl, by simp⟩

theorem OwnFrame.trans {m : McuId} {s t u : State} (h : OwnFrame m s t) (k : OwnFrame m t u) : OwnFrame m s u := by
  obtain ⟨l, hl, ho⟩ := h.events
  obtain ⟨l', hl', ho'⟩ := k.events
  exact ⟨k.cfg.trans h.cfg, k.turns.trans h.turns, k.draws.trans h.draws, k.peer.trans h.peer,
    k.role.trans h.role, k.rst.trans h.rst, k.cancel.trans h.cancel, k.progress.trans h.progress,
    l' ++ l, by rw [hl', hl, List.append_assoc], fun e he => (List.mem_append.mp he).elim (ho' e) (ho e)⟩

/-- An update of registers that keeps role, inputs and progress has the frame. -/
theorem ownFrame_setMcu {m : McuId} {s : State} {x : Mcu} (hr : x.role = (s.mcu m).role)
    (hs : x.rst = (s.mcu m).rst) (hc : x.cancel = (s.mcu m).cancel) (hp : x.progress = (s.mcu m).progress) :
    OwnFrame m s (s.setMcu m x) :=
  ⟨by simp, by simp, by simp, by simp, by simpa, by simpa, by simpa, by simpa, [], by simp, by simp⟩

/-- Adding an event of MCU `m` keeps the frame. -/
theorem OwnFrame.emit {m : McuId} {s t : State} (h : OwnFrame m s t) (e : Event) (he : e.mcu = m) :
    OwnFrame m s (emit e t) := by
  obtain ⟨l, hl, ho⟩ := h.events
  exact ⟨h.cfg, h.turns, h.draws, by simpa using h.peer, by simpa using h.role, by simpa using h.rst,
    by simpa using h.cancel, by simpa using h.progress, e :: l, by simp [hl], by simpa [he] using ho⟩

/-- The changes the operation `op` can make to the registers of its MCU, with the lines as they stand. -/
inductive RowStep (cfg : Config) (lines : Byte) : StepOp → Mcu → Mcu → Prop where
  | same (op x) : RowStep cfg lines op x x
  | reset (op x) (h : x.rst = true) : RowStep cfg lines op x (resetRow cfg x)
  | submit (x) (hr : x.rst = false) (h : submitEnabled cfg x = true) :
      RowStep cfg lines .submit x { x with txq := x.txq ++ [x.txword cfg], ph := .retrieve }
  | apply (x) (w rest) (hr : x.rst = false) (he : x.eph = .idle) (hq : x.txq = w :: rest) :
      RowStep cfg lines .apply x { x with txq := rest, oe := ~~~w, eph := .settle }
  | sample (x) (hr : x.rst = false) (h : sampleEnabled cfg x = true) :
      RowStep cfg lines .sample x
        { x with rxq := x.rxq ++ [lines], eph := .idle, oe := if cfg.driveHold then x.oe else 0x00#8 }
  | retrieve (x) (v rest) (hr : x.rst = false) (hp : x.ph = .retrieve) (hq : x.rxq = v :: rest) :
      RowStep cfg lines .retrieve x { x with obsl := v, rxq := rest, ph := .report }
  | report (x) (hr : x.rst = false) (h : x.ph = .report) : RowStep cfg lines .report x { x with ph := .advance }
  | advance (x) (hr : x.rst = false) (h : x.ph = .advance) :
      RowStep cfg lines .advance x { x with cnt := x.cnt + 1#3, ph := .submit }
  | cancel (x) (hr : x.rst = false) (h : cancelEnabled cfg x = true) :
      RowStep cfg lines .cancel x { x with ph := .halt }

/-- The operation of R61 an operation's effect is: a row of the code table is slot selection, a word of the pad driver
is APPLY. -/
def opOf : Instr → StepOp
  | .selA0 _ | .selA1 _ | .selA2 _ | .selA3 _ | .selA4 _ | .selA5 _ | .selA6 _ | .selA7 _ | .selA _ => .selA
  | .selB0 _ | .selB1 _ | .selB2 _ | .selB3 _ | .selB4 _ | .selB5 _ | .selB6 _ | .selB7 _ | .selB _ => .selB
  | .drvL0 _ | .drvL1 _ | .drvL2 _ | .drvL3 _ | .drvL4 _ | .drvL5 _ | .drvL6 _ | .drvL7 _
  | .drvNone _ | .drvAny _ _ | .apply _ => .apply
  | .enc _ => .enc
  | .inv _ => .inv
  | .submit _ => .submit
  | .retrieve _ => .retrieve
  | .sample _ => .sample
  | .delayA _ => .delayA
  | .report _ => .report
  | .advance _ => .advance
  | .cancel _ => .cancel
  | .runCycle _ => .runCycle

variable (m : McuId) (s : State)

@[simp] theorem resetMcu_mcu : (resetMcu m s).mcu m = resetRow s.cfg (s.mcu m) := by simp [resetMcu, resetRow]
theorem resetMcu_frame : OwnFrame m s (resetMcu m s) := ownFrame_setMcu rfl rfl rfl rfl

theorem whenUp_reset {m : McuId} {s : State} (h : (s.mcu m).rst = true) (f : Mcu → State) :
    whenUp m s f = resetMcu m s := by simp [whenUp, h]
theorem whenUp_up {m : McuId} {s : State} (h : (s.mcu m).rst = false) (f : Mcu → State) :
    whenUp m s f = f (s.mcu m) := by simp [whenUp, h]

/-- What the operation `op` of MCU `m` may do: one `RowStep` of its MCU, and the frame. -/
abbrev RowOf (op : StepOp) (m : McuId) (s t : State) : Prop :=
  OwnFrame m s t ∧ RowStep s.cfg (line s) op (s.mcu m) (t.mcu m)

/-- An operation under `whenUp` is the reset or its body. -/
theorem whenUp_row {op : StepOp} {m : McuId} {s : State} {f : Mcu → State}
    (h : (s.mcu m).rst = false → RowOf op m s (f (s.mcu m))) : RowOf op m s (whenUp m s f) := by
  cases hr : (s.mcu m).rst with
  | true =>
    rw [whenUp_reset hr]
    exact ⟨resetMcu_frame m s, by simpa using RowStep.reset op _ hr⟩
  | false => rw [whenUp_up hr]; exact h hr

theorem rowOf_self (op : StepOp) : RowOf op m s s := ⟨.refl m s, .same op _⟩
theorem rowOf_emit (op : StepOp) (e : Event) (he : e.mcu = m) : RowOf op m s (emit e s) :=
  ⟨(OwnFrame.refl m s).emit e he, by simpa using RowStep.same op _⟩

theorem submit_row : RowOf .submit m s (submit m s) := by
  refine whenUp_row fun hr => ?_
  split
  · next h => exact ⟨ownFrame_setMcu rfl rfl rfl rfl, by simpa using RowStep.submit _ hr h⟩
  · exact rowOf_self m s _

theorem apply_row : RowOf .apply m s (apply m s) := by
  refine whenUp_row fun hr => ?_
  split
  · next w rest he hq =>
    exact ⟨.emit (ownFrame_setMcu (by rfl) (by rfl) (by rfl) (by rfl)) _ rfl,
      by simpa using RowStep.apply _ w rest hr he hq⟩
  · exact rowOf_self m s _
  · exact rowOf_self m s _

theorem drive_row (w : Byte) : RowOf .apply m s (drive w m s) := by
  refine whenUp_row fun _ => ?_
  split
  · exact apply_row m s
  · exact rowOf_self m s _

theorem sample_row : RowOf .sample m s (sample m s) := by
  refine whenUp_row fun hr => ?_
  split
  · next h =>
    exact ⟨.emit (ownFrame_setMcu (by rfl) (by rfl) (by rfl) (by rfl)) _ rfl,
      by simpa using RowStep.sample _ hr h⟩
  · exact rowOf_self m s _

theorem retrieve_row : RowOf .retrieve m s (retrieve m s) := by
  refine whenUp_row fun hr => ?_
  split
  · next v rest hp hq => exact ⟨ownFrame_setMcu rfl rfl rfl rfl, by simpa using RowStep.retrieve _ v rest hr hp hq⟩
  all_goals exact rowOf_self m s _

theorem report_row : RowOf .report m s (report m s) := by
  refine whenUp_row fun hr => ?_
  split
  · next h =>
    exact ⟨.emit (ownFrame_setMcu (by rfl) (by rfl) (by rfl) (by rfl)) _ rfl,
      by simpa using RowStep.report _ hr (by simpa [reportEnabled] using h)⟩
  · exact rowOf_self m s _

theorem advance_row : RowOf .advance m s (advance m s) := by
  refine whenUp_row fun hr => ?_
  split
  · next h =>
    exact ⟨ownFrame_setMcu rfl rfl rfl rfl, by simpa using RowStep.advance _ hr (by simpa [advanceEnabled] using h)⟩
  · exact rowOf_self m s _

theorem cancel_row : RowOf .cancel m s (cancel m s) := by
  refine whenUp_row fun hr => ?_
  split
  · next h => exact ⟨ownFrame_setMcu rfl rfl rfl rfl, by simpa using RowStep.cancel _ hr h⟩
  · exact rowOf_self m s _

theorem showIndex_row (op : StepOp) (r : Role) : RowOf op m s (showIndex r m s) := by
  unfold showIndex; split
  · exact rowOf_emit m s _ _ rfl
  · exact rowOf_self m s _

theorem showRow_row (op : StepOp) (r : Role) (c : Count) : RowOf op m s (showRow r c m s) := by
  unfold showRow; split
  · exact rowOf_emit m s _ _ rfl
  · exact rowOf_self m s _

/-- A turn of an agent is one operation of its MCU. -/
theorem agentTurn_row (a : Agent) : ∃ op, RowOf op m s (agentTurn m s a) := by
  unfold agentTurn; split
  · split
    · exact ⟨_, cancel_row m s⟩
    · exact ⟨_, submit_row m s⟩
  · exact ⟨_, retrieve_row m s⟩
  · exact ⟨_, report_row m s⟩
  · exact ⟨_, advance_row m s⟩
  · exact ⟨.delayA, rowOf_self m s _⟩
  · exact ⟨_, apply_row m s⟩
  · exact ⟨_, sample_row m s⟩

theorem whileGoing_goes {m : McuId} {s : State} (h : engineGoes (s.mcu m) = true) (f : State → State) :
    whileGoing m f s = f s := by simp [whileGoing, h]
theorem whileGoing_stopped {m : McuId} {s : State} (h : engineGoes (s.mcu m) = false) (f : State → State) :
    whileGoing m f s = s := by simp [whileGoing, h]

/-- An engine's step, done while the engine goes on, is that operation or nothing. -/
theorem whileGoing_row {op : StepOp} {m : McuId} {s : State} {f : State → State} (h : RowOf op m s (f s)) :
    RowOf op m s (whileGoing m f s) := by
  unfold whileGoing; split
  · exact h
  · exact rowOf_self m s _

/-- A turn in a gap of a RUNCYCLE is one operation of its MCU. -/
theorem gapTurn_row (a : Agent) : ∃ op, RowOf op m s (gapTurn m s a) := by
  cases a
  · exact agentTurn_row m s .arbiter
  · obtain ⟨op, h⟩ := agentTurn_row m s .engine
    exact ⟨op, whileGoing_row (f := fun u => agentTurn m u .engine) h⟩

/-- Several turns of the agents of MCU `m` have the frame of one. -/
theorem gapTurns_frame (l : List Agent) (s : State) : OwnFrame m s (l.foldl (gapTurn m) s) := by
  induction l generalizing s with
  | nil => exact .refl m s
  | cons a l ih =>
    obtain ⟨_, h⟩ := gapTurn_row m s a
    exact h.1.trans (ih _)

/-- Every property of a state that each turn of the agents of MCU `m` keeps, several turns keep. -/
theorem gapTurns_induct {P : State → Prop} (h : ∀ s a, P s → P (gapTurn m s a)) (l : List Agent) (s : State)
    (hs : P s) : P (l.foldl (gapTurn m) s) := by
  induction l generalizing s with
  | nil => exact hs
  | cons a l ih => exact ih _ (h s a hs)

/-- Every property of a state that each operation of MCU `m` keeps, the turns of its agents keep. -/
theorem gapTurns_keep {P : State → Prop} (h : ∀ op s t, P s → RowOf op m s t → P t) (l : List Agent) (s : State)
    (hs : P s) : P (l.foldl (gapTurn m) s) :=
  gapTurns_induct m (fun s a hs => (gapTurn_row m s a).elim fun op ha => h op s _ hs ha) l s hs

/-- A gap of a RUNCYCLE of MCU `m` leaves the registers of `m` alone. -/
@[simp] theorem peerGap_mcu : (peerGap m s).mcu m = s.mcu m := by
  simpa [peerGap] using (gapTurns_frame m.peer (Config.peerSteps s.draws) s).peer

@[simp] theorem peerGap_cfg : (peerGap m s).cfg = s.cfg := (gapTurns_frame m.peer (Config.peerSteps s.draws) s).cfg
@[simp] theorem peerGap_turns : (peerGap m s).turns = s.turns :=
  (gapTurns_frame m.peer (Config.peerSteps s.draws) s).turns

/-- A gap of a RUNCYCLE of MCU `m` adds events of the peer alone. -/
theorem peerGap_events : ∃ l, (peerGap m s).events = l ++ s.events ∧ ∀ e ∈ l, e.mcu = m.peer :=
  (gapTurns_frame m.peer (Config.peerSteps s.draws) s).events

/-- The MCU of an operation that is not the composite changes by one `RowStep`, and nothing else does. -/
theorem exec_row {i : Instr} {s t : State} (hi : composite i = false) (h : exec i s = .next t) :
    RowOf (opOf i) i.mcu s t := by
  cases i
  case runCycle m => exact absurd hi (by simp [composite])
  all_goals cases h
  case selA0 m => exact showRow_row m s _ _ _
  case selA1 m => exact showRow_row m s _ _ _
  case selA2 m => exact showRow_row m s _ _ _
  case selA3 m => exact showRow_row m s _ _ _
  case selA4 m => exact showRow_row m s _ _ _
  case selA5 m => exact showRow_row m s _ _ _
  case selA6 m => exact showRow_row m s _ _ _
  case selA7 m => exact showRow_row m s _ _ _
  case selB0 m => exact showRow_row m s _ _ _
  case selB1 m => exact showRow_row m s _ _ _
  case selB2 m => exact showRow_row m s _ _ _
  case selB3 m => exact showRow_row m s _ _ _
  case selB4 m => exact showRow_row m s _ _ _
  case selB5 m => exact showRow_row m s _ _ _
  case selB6 m => exact showRow_row m s _ _ _
  case selB7 m => exact showRow_row m s _ _ _
  case drvL0 m => exact drive_row m s _
  case drvL1 m => exact drive_row m s _
  case drvL2 m => exact drive_row m s _
  case drvL3 m => exact drive_row m s _
  case drvL4 m => exact drive_row m s _
  case drvL5 m => exact drive_row m s _
  case drvL6 m => exact drive_row m s _
  case drvL7 m => exact drive_row m s _
  case drvNone m => exact drive_row m s _
  case drvAny m w => exact drive_row m s w
  case selA m => exact showIndex_row m s _ _
  case selB m => exact showIndex_row m s _ _
  case enc m => exact rowOf_emit m s _ _ rfl
  case inv m => exact rowOf_emit m s _ _ rfl
  case submit m => exact submit_row m s
  case retrieve m => exact retrieve_row m s
  case apply m => exact apply_row m s
  case sample m => exact sample_row m s
  case delayA m => exact rowOf_self m s _
  case report m => exact report_row m s
  case advance m => exact advance_row m s
  case cancel m => exact cancel_row m s

/-- The registers a RUNCYCLE leaves in its own MCU are those its steps leave; the result is an event. -/
theorem runCycle_mcu {m : McuId} {s : State} (hr : (s.mcu m).rst = false)
    (h : submitEnabled s.cfg (s.mcu m) = true) : (runCycle m s).mcu m = (cycleSteps m s).mcu m := by
  simp only [runCycle, whenUp_up hr, h, if_true]
  split
  · simp
  · rfl

/-- Where SUBMIT is not enabled a RUNCYCLE waits (R106). -/
theorem runCycle_waits {m : McuId} {s : State} (hr : (s.mcu m).rst = false)
    (h : submitEnabled s.cfg (s.mcu m) = false) : runCycle m s = s := by
  simp [runCycle, whenUp_up hr, h]

/-- What an operation does to MCU `m`, the RUNCYCLE of its peer excepted: nothing, the reset, one `RowStep` of an
operation of its own, or the steps of its own RUNCYCLE. -/
theorem exec_mcu {s t : State} {i : Instr} {m : McuId} (hi : i ≠ .runCycle m.peer) (h : exec i s = .next t) :
    t.mcu m = s.mcu m ∨ ((s.mcu m).rst = true ∧ t.mcu m = resetRow s.cfg (s.mcu m)) ∨
    (i.mcu = m ∧ RowStep s.cfg (line s) (opOf i) (s.mcu m) (t.mcu m)) ∨
    (i = .runCycle m ∧ (s.mcu m).rst = false ∧ submitEnabled s.cfg (s.mcu m) = true ∧
      t.mcu m = (cycleSteps m s).mcu m) := by
  cases hc : composite i with
  | false =>
    obtain ⟨hf, hr⟩ := exec_row hc h
    rcases McuId.eq_or_peer i.mcu m with rfl | hm
    · exact .inr (.inr (.inl ⟨rfl, hr⟩))
    · exact .inl (by rw [hm, hf.peer])
  | true =>
    cases i
    case runCycle n =>
      cases h
      rcases McuId.eq_or_peer m n with rfl | rfl
      · cases hr : (s.mcu n).rst with
        | true =>
          have e : runCycle n s = resetMcu n s := whenUp_reset hr _
          exact .inr (.inl ⟨rfl, by rw [e]; simp⟩)
        | false =>
          cases hs : submitEnabled s.cfg (s.mcu n) with
          | true => exact .inr (.inr (.inr ⟨rfl, rfl, rfl, runCycle_mcu hr hs⟩))
          | false => exact .inl (by rw [runCycle_waits hr hs])
      · exact absurd rfl hi
    all_goals exact absurd hc (by simp [composite])

/-- In a RUNCYCLE the other MCU changes only by the turns of its own agents: what each of these keeps, it keeps. -/
theorem runCycle_keep_peer {kept : Mcu → Prop} {m : McuId} {s : State}
    (h : ∀ u a, u.cfg = s.cfg → kept (u.mcu m.peer) → kept ((gapTurn m.peer u a).mcu m.peer))
    (hs : kept (s.mcu m.peer)) : kept ((runCycle m s).mcu m.peer) ∧ (runCycle m s).cfg = s.cfg := by
  let P : State → Prop := fun u => kept (u.mcu m.peer) ∧ u.cfg = s.cfg
  have own : ∀ {op u v}, P u → RowOf op m u v → P v := fun hu hv =>
    ⟨by rw [hv.1.peer]; exact hu.1, hv.1.cfg.trans hu.2⟩
  have gap : ∀ u, P u → P (peerGap m u) := by
    intro u hu
    have := gapTurns_induct m.peer (P := P)
      (fun v a hv => ⟨h v a hv.2 hv.1, (gapTurn_row m.peer v a).elim fun _ hrow => hrow.1.cfg.trans hv.2⟩)
      (Config.peerSteps u.draws) u hu
    exact ⟨by simpa [peerGap] using this.1, this.2⟩
  have steps : P (cycleSteps m s) :=
    own (gap _ (own (gap _ (own (gap _ (own (gap _ (own ⟨hs, rfl⟩ (submit_row m s)))
      (whileGoing_row (apply_row m _)))) (whileGoing_row (sample_row m _)))) (retrieve_row m _))) (report_row m _)
  show P (runCycle m s)
  unfold runCycle whenUp
  split
  · exact own ⟨hs, rfl⟩ ⟨resetMcu_frame m s, by simpa using RowStep.reset .runCycle _ ‹_›⟩
  · dsimp only
    split
    · split
      · exact own steps (rowOf_emit m _ .runCycle _ rfl)
      · exact steps
    · exact ⟨hs, rfl⟩

/-- What keeps under every operation of either MCU, under the draw of a free value and under an event, every exec keeps. -/
theorem exec_keep {P : State → Prop} (h : ∀ op m s t, P s → RowOf op m s t → P t)
    (hd : ∀ s, P s → P { s with draws := s.draws + 1 }) {i : Instr} {s t : State} (hs : P s)
    (he : exec i s = .next t) : P t := by
  cases hi : composite i with
  | false => exact h _ _ _ _ hs (exec_row hi he)
  | true =>
    cases i
    case runCycle m =>
      cases he
      have gap : ∀ u, P u → P (peerGap m u) := fun u hu => hd _ (gapTurns_keep m.peer (fun op => h op m.peer) _ u hu)
      have steps : P (cycleSteps m s) :=
        h _ m _ _ (gap _ (h _ m _ _ (gap _ (h _ m _ _ (gap _ (h _ m _ _ (gap _ (h _ m _ _ hs (submit_row m s)))
          (whileGoing_row (apply_row m _)))) (whileGoing_row (sample_row m _)))) (retrieve_row m _))) (report_row m _)
      show P (runCycle m s)
      unfold runCycle whenUp
      split
      · exact h .runCycle m _ _ hs ⟨resetMcu_frame m s, by simpa using RowStep.reset _ _ ‹_›⟩
      · dsimp only
        split
        · split
          · exact h .runCycle m _ _ steps (rowOf_emit m _ _ _ rfl)
          · exact steps
        · exact hs
    all_goals exact absurd hi (by simp [composite])

end Sys2Proof.Machine
end

