-- ==== Sys2Proof/Laws/Enabled.lean ====
section
/-! SUPPORT. Each shared operation where it is enabled, as one equation over `emit` and `setMcu`, and where it is not;
and one small law for each operand function. -/

namespace Sys2Proof.Machine

variable {m : McuId} {s : State}

theorem submit_enabled (hr : (s.mcu m).rst = false) (h : submitEnabled s.cfg (s.mcu m) = true) :
    submit m s = s.setMcu m { s.mcu m with txq := (s.mcu m).txq ++ [(s.mcu m).txword s.cfg], ph := .retrieve } := by
  simp [submit, whenUp_up hr, h]

theorem submit_waits (hr : (s.mcu m).rst = false) (h : submitEnabled s.cfg (s.mcu m) = false) :
    submit m s = s := by
  simp [submit, whenUp_up hr, h]

theorem apply_enabled {w : Byte} {rest : List Byte} (hr : (s.mcu m).rst = false) (he : (s.mcu m).eph = .idle)
    (hq : (s.mcu m).txq = w :: rest) :
    apply m s = emit (.apply m w) (s.setMcu m { s.mcu m with txq := rest, oe := ~~~w, eph := .settle }) := by
  simp [apply, whenUp_up hr, he, hq]

theorem apply_waits (hr : (s.mcu m).rst = false) (h : (s.mcu m).eph = .settle ∨ (s.mcu m).txq = []) :
    apply m s = s := by
  simp only [apply, whenUp_up hr]
  split
  · next he hq => simp [he, hq] at h
  all_goals rfl

theorem drive_head {w : Byte} (hr : (s.mcu m).rst = false) (h : (s.mcu m).txq.head? = some w) :
    drive w m s = apply m s := by
  simp [drive, whenUp_up hr, h]

theorem drive_other {w : Byte} (hr : (s.mcu m).rst = false) (h : (s.mcu m).txq.head? ≠ some w) :
    drive w m s = s := by
  simp [drive, whenUp_up hr, h]

theorem sample_enabled (hr : (s.mcu m).rst = false) (h : sampleEnabled s.cfg (s.mcu m) = true) :
    sample m s = emit (.sample m (line s)) (s.setMcu m { s.mcu m with
      rxq := (s.mcu m).rxq ++ [line s], eph := .idle,
      oe := if s.cfg.driveHold then (s.mcu m).oe else 0x00#8 }) := by
  simp [sample, whenUp_up hr, h]

theorem sample_waits (hr : (s.mcu m).rst = false) (h : sampleEnabled s.cfg (s.mcu m) = false) :
    sample m s = s := by
  simp [sample, whenUp_up hr, h]

theorem retrieve_enabled {v : Byte} {rest : List Byte} (hr : (s.mcu m).rst = false)
    (hp : (s.mcu m).ph = .retrieve) (hq : (s.mcu m).rxq = v :: rest) :
    retrieve m s = s.setMcu m { s.mcu m with obsl := v, rxq := rest, ph := .report } := by
  simp [retrieve, whenUp_up hr, hp, hq]

theorem retrieve_waits (hr : (s.mcu m).rst = false) (h : (s.mcu m).ph ≠ .retrieve ∨ (s.mcu m).rxq = []) :
    retrieve m s = s := by
  simp only [retrieve, whenUp_up hr]
  split
  · next hp hq => simp [hp, hq] at h
  all_goals rfl

theorem report_enabled (hr : (s.mcu m).rst = false) (h : (s.mcu m).ph = .report) :
    report m s = emit (.report m (s.mcu m).role ((s.mcu m).txword s.cfg) (s.mcu m).obsl)
      (s.setMcu m { s.mcu m with ph := .advance }) := by
  simp [report, whenUp_up hr, reportEnabled, h]

theorem report_waits (hr : (s.mcu m).rst = false) (h : (s.mcu m).ph ≠ .report) : report m s = s := by
  simp [report, whenUp_up hr, reportEnabled, h]

theorem advance_enabled (hr : (s.mcu m).rst = false) (h : (s.mcu m).ph = .advance) :
    advance m s = s.setMcu m { s.mcu m with cnt := (s.mcu m).cnt + 1#3, ph := .submit } := by
  simp [advance, whenUp_up hr, advanceEnabled, h]

theorem advance_waits (hr : (s.mcu m).rst = false) (h : (s.mcu m).ph ≠ .advance) : advance m s = s := by
  simp [advance, whenUp_up hr, advanceEnabled, h]

theorem cancel_enabled (hr : (s.mcu m).rst = false) (h : cancelEnabled s.cfg (s.mcu m) = true) :
    cancel m s = s.setMcu m { s.mcu m with ph := .halt } := by
  simp [cancel, whenUp_up hr, h]

theorem cancel_waits (hr : (s.mcu m).rst = false) (h : cancelEnabled s.cfg (s.mcu m) = false) :
    cancel m s = s := by
  simp [cancel, whenUp_up hr, h]

/-- The lines, seen from one MCU: its own word and its peer's. -/
theorem line_eq (m : McuId) (s : State) : line s = (s.mcu m).shown &&& (s.mcu m.peer).shown := by
  cases m
  · rfl
  · exact BitVec.and_comm _ _

/-- Applying a transmitted word enables the pads of its INTENT. -/
@[simp] theorem not_txword (cfg : Config) (x : Mcu) : ~~~(x.txword cfg) = x.intent cfg := by
  simp only [Mcu.txword, txw, invert, Mcu.intent]
  generalize intentOf cfg x.role x.cnt = v
  ext i hi
  simp only [BitVec.getElem_not, BitVec.getElem_xor]
  have : (0xFF#8)[i] = true := by
    have h : ∀ j (hj : j < 8), (0xFF#8)[j] = true := by decide
    exact h i hi
  simp [this]

/-- The word an MCU shows while it drives its INTENT is its TXWORD. -/
theorem not_intent (cfg : Config) (x : Mcu) : ~~~(x.intent cfg) = x.txword cfg := by
  rw [← not_txword, BitVec.not_not]

/-- The line index never exceeds 8 (R53, R72). -/
theorem indexOf_le (r : Role) (c : Count) : indexOf r c ≤ 8#4 := by
  cases r <;> revert c <;> decide

/-- A transmitted word decodes to the row that drives it. -/
theorem exec_decodeTxword (m : McuId) (w : Byte) (s : State) :
    exec (decodeTxword m w) s = .next (drive w m s) := by
  have hb : BitVec.ofNat 8 w.toNat = w := by simp
  unfold decodeTxword
  split
  case h_10 => rfl
  all_goals (rename_i hn; rw [← hb, hn]; rfl)

/-- The turn of an agent is the named operation its phase selects. -/
theorem agentTurn_eq_exec (m : McuId) (s : State) (a : Agent) :
    match agentOp s.cfg (s.mcu m) a with
    | some op => exec (decodeStep m op) s = .next (agentTurn m s a)
    | none => agentTurn m s a = s := by
  unfold agentTurn agentOp arbiterOp engineOp
  cases a <;> cases hp : (s.mcu m).ph <;> cases he : (s.mcu m).eph <;>
    cases hc : cancelled s.cfg (s.mcu m) <;> rfl

/-- What the steps of a RUNCYCLE leave of the registers of their own MCU, in any state in which it starts (R106). -/
structure CycleRow (cfg : Config) (x y : Mcu) : Prop where
  cnt : y.cnt = x.cnt
  ph : (y.ph = .retrieve ∧ y.obsl = x.obsl ∧ y.rxq = []) ∨ y.ph = .advance
  oe : cfg.driveHold = true →
    y.oe = x.oe ∨ (x.eph = .idle ∧ ∃ rest, x.txq ++ [x.txword cfg] = ~~~y.oe :: rest)

/-- The engine's APPLY of a RUNCYCLE, after its SUBMIT: the arbiter's registers stay, OE stays or takes the oldest word. -/
theorem cycleApply_mcu (hr : (s.mcu m).rst = false) :
    let y := (whileGoing m (apply m) s).mcu m
    y.rst = false ∧ y.ph = (s.mcu m).ph ∧ y.cnt = (s.mcu m).cnt ∧ y.obsl = (s.mcu m).obsl ∧
    (y.oe = (s.mcu m).oe ∨ ((s.mcu m).eph = .idle ∧ ∃ rest, (s.mcu m).txq = ~~~y.oe :: rest)) := by
  have h := (whileGoing_row (f := apply m) (apply_row m s)).2
  dsimp only
  generalize (whileGoing m (apply m) s).mcu m = y at h ⊢
  generalize s.mcu m = x at h hr ⊢
  cases h with
  | same => exact ⟨hr, rfl, rfl, rfl, .inl rfl⟩
  | reset _ _ h => rw [hr] at h; cases h
  | apply _ w rest _ he hq => exact ⟨hr, rfl, rfl, rfl, .inr ⟨he, rest, by simpa using hq⟩⟩

/-- The engine's SAMPLE of a RUNCYCLE: the arbiter's registers stay, and OE with DRIVE_HOLD. -/
theorem cycleSample_mcu (hr : (s.mcu m).rst = false) :
    let y := (whileGoing m (sample m) s).mcu m
    y.rst = false ∧ y.ph = (s.mcu m).ph ∧ y.cnt = (s.mcu m).cnt ∧ y.obsl = (s.mcu m).obsl ∧
    (s.cfg.driveHold = true → y.oe = (s.mcu m).oe) := by
  have h := (whileGoing_row (f := sample m) (sample_row m s)).2
  dsimp only
  generalize (whileGoing m (sample m) s).mcu m = y at h ⊢
  generalize s.mcu m = x at h hr ⊢
  cases h with
  | same => exact ⟨hr, rfl, rfl, rfl, fun _ => rfl⟩
  | reset _ _ h => rw [hr] at h; cases h
  | sample _ _ _ => exact ⟨hr, rfl, rfl, rfl, fun h => by simp [h]⟩

/-- RETRIEVE and REPORT of a RUNCYCLE: both are taken, or RETRIEVE waits for a result that is not there. -/
theorem cycleEnd_mcu (hr : (s.mcu m).rst = false) (hp : (s.mcu m).ph = .retrieve) :
    let y := (report m (peerGap m (retrieve m s))).mcu m
    y = s.mcu m ∧ (s.mcu m).rxq = [] ∨
    ∃ v rest, y = { s.mcu m with obsl := v, rxq := rest, ph := .advance } := by
  dsimp only
  cases hq : (s.mcu m).rxq with
  | nil =>
    rw [retrieve_waits hr (.inr hq), report_waits (by simp [hr]) (by simp [hp])]
    exact .inl ⟨by simp, rfl⟩
  | cons v rest =>
    rw [report_enabled (by simp [retrieve_enabled hr hp hq, hr]) (by simp [retrieve_enabled hr hp hq])]
    exact .inr ⟨v, rest, by simp [retrieve_enabled hr hp hq]⟩

/-- The steps of a RUNCYCLE, whatever the peer and the engine do. -/
theorem cycleSteps_mcu (hr : (s.mcu m).rst = false) (hs : submitEnabled s.cfg (s.mcu m) = true) :
    CycleRow s.cfg (s.mcu m) ((cycleSteps m s).mcu m) := by
  have e1 := submit_enabled hr hs
  obtain ⟨r2, p2, c2, o2, d2⟩ := cycleApply_mcu (m := m) (s := peerGap m (submit m s)) (by simp [e1, hr])
  obtain ⟨r3, p3, c3, o3, d3⟩ := cycleSample_mcu (m := m)
    (s := peerGap m (whileGoing m (apply m) (peerGap m (submit m s)))) (by simpa using r2)
  have cfg2 : (whileGoing m (apply m) (peerGap m (submit m s))).cfg = s.cfg :=
    (whileGoing_row (f := apply m) (apply_row m _)).1.cfg.trans (by simp [e1])
  have hx : (submit m s).mcu m =
      { s.mcu m with txq := (s.mcu m).txq ++ [(s.mcu m).txword s.cfg], ph := .retrieve } := by simp [e1]
  rw [peerGap_cfg, cfg2] at d3
  simp only [peerGap_mcu, hx] at p2 c2 o2 d2 p3 c3 o3 d3 r3
  have oe := fun h => (d3 h).symm ▸ d2
  rcases cycleEnd_mcu (m := m)
      (s := peerGap m (whileGoing m (sample m) (peerGap m (whileGoing m (apply m) (peerGap m (submit m s))))))
      (by simpa using r3) (by simp [p3, p2]) with ⟨he, hq⟩ | ⟨v, rest, he⟩
  · rw [show (cycleSteps m s).mcu m = _ from he]
    simp only [peerGap_mcu] at hq ⊢
    exact ⟨c3.trans c2, .inl ⟨p3.trans p2, o3.trans o2, hq⟩, oe⟩
  · rw [show (cycleSteps m s).mcu m = _ from he]
    simp only [peerGap_mcu]
    exact ⟨c3.trans c2, .inr rfl, oe⟩

end Sys2Proof.Machine
end

