-- ==== Sys2Proof/Laws/PerInstr.lean ====
section
/-! SUPPORT. One lemma per operation about its code: whose it is, and that a slot word is the code of slot selection, a
transmitted word the code of APPLY, and a name the code of the operation it names (R50, R61, R63). -/

namespace Sys2Proof.Laws.CodeForm

open Sys2Proof Sys2Proof.Machine

/-- The code of an operation keeps its MCU, has a format of R63, and the format fits what the operation does. -/
def Statement (i : Instr) : Prop :=
  (encode i).1 = i.mcu ∧
  match (encode i).2 with
  | .slot b => b.toNat < 16 ∧ (opOf i = .selA ∨ opOf i = .selB)
  | .txword _ => opOf i = .apply
  | .step op => opOf i = op

theorem selA0 (m : McuId) : Statement (.selA0 m) := ⟨rfl, by decide, .inl rfl⟩
theorem selA1 (m : McuId) : Statement (.selA1 m) := ⟨rfl, by decide, .inl rfl⟩
theorem selA2 (m : McuId) : Statement (.selA2 m) := ⟨rfl, by decide, .inl rfl⟩
theorem selA3 (m : McuId) : Statement (.selA3 m) := ⟨rfl, by decide, .inl rfl⟩
theorem selA4 (m : McuId) : Statement (.selA4 m) := ⟨rfl, by decide, .inl rfl⟩
theorem selA5 (m : McuId) : Statement (.selA5 m) := ⟨rfl, by decide, .inl rfl⟩
theorem selA6 (m : McuId) : Statement (.selA6 m) := ⟨rfl, by decide, .inl rfl⟩
theorem selA7 (m : McuId) : Statement (.selA7 m) := ⟨rfl, by decide, .inl rfl⟩
theorem selB0 (m : McuId) : Statement (.selB0 m) := ⟨rfl, by decide, .inr rfl⟩
theorem selB1 (m : McuId) : Statement (.selB1 m) := ⟨rfl, by decide, .inr rfl⟩
theorem selB2 (m : McuId) : Statement (.selB2 m) := ⟨rfl, by decide, .inr rfl⟩
theorem selB3 (m : McuId) : Statement (.selB3 m) := ⟨rfl, by decide, .inr rfl⟩
theorem selB4 (m : McuId) : Statement (.selB4 m) := ⟨rfl, by decide, .inr rfl⟩
theorem selB5 (m : McuId) : Statement (.selB5 m) := ⟨rfl, by decide, .inr rfl⟩
theorem selB6 (m : McuId) : Statement (.selB6 m) := ⟨rfl, by decide, .inr rfl⟩
theorem selB7 (m : McuId) : Statement (.selB7 m) := ⟨rfl, by decide, .inr rfl⟩
theorem drvL0 (m : McuId) : Statement (.drvL0 m) := ⟨rfl, rfl⟩
theorem drvL1 (m : McuId) : Statement (.drvL1 m) := ⟨rfl, rfl⟩
theorem drvL2 (m : McuId) : Statement (.drvL2 m) := ⟨rfl, rfl⟩
theorem drvL3 (m : McuId) : Statement (.drvL3 m) := ⟨rfl, rfl⟩
theorem drvL4 (m : McuId) : Statement (.drvL4 m) := ⟨rfl, rfl⟩
theorem drvL5 (m : McuId) : Statement (.drvL5 m) := ⟨rfl, rfl⟩
theorem drvL6 (m : McuId) : Statement (.drvL6 m) := ⟨rfl, rfl⟩
theorem drvL7 (m : McuId) : Statement (.drvL7 m) := ⟨rfl, rfl⟩
theorem drvNone (m : McuId) : Statement (.drvNone m) := ⟨rfl, rfl⟩
theorem drvAny (m : McuId) (w : Byte) : Statement (.drvAny m w) := ⟨rfl, rfl⟩
theorem selA (m : McuId) : Statement (.selA m) := ⟨rfl, rfl⟩
theorem selB (m : McuId) : Statement (.selB m) := ⟨rfl, rfl⟩
theorem enc (m : McuId) : Statement (.enc m) := ⟨rfl, rfl⟩
theorem inv (m : McuId) : Statement (.inv m) := ⟨rfl, rfl⟩
theorem submit (m : McuId) : Statement (.submit m) := ⟨rfl, rfl⟩
theorem retrieve (m : McuId) : Statement (.retrieve m) := ⟨rfl, rfl⟩
theorem apply (m : McuId) : Statement (.apply m) := ⟨rfl, rfl⟩
theorem sample (m : McuId) : Statement (.sample m) := ⟨rfl, rfl⟩
theorem delayA (m : McuId) : Statement (.delayA m) := ⟨rfl, rfl⟩
theorem report (m : McuId) : Statement (.report m) := ⟨rfl, rfl⟩
theorem advance (m : McuId) : Statement (.advance m) := ⟨rfl, rfl⟩
theorem cancel (m : McuId) : Statement (.cancel m) := ⟨rfl, rfl⟩
theorem runCycle (m : McuId) : Statement (.runCycle m) := ⟨rfl, rfl⟩

end Sys2Proof.Laws.CodeForm
end

