-- ==== Sys2Proof/Laws/Step.lean ====
section
/-! SUPPORT. What a step can do, said once: the turn it takes, the operation or the idle turn it runs, and the turns
that need no decoding. -/

namespace Sys2Proof.Machine

variable {s t : State} {m : McuId} {rest : List Turn}

/-- Taking a turn changes the model's own bookkeeping alone. -/
theorem nextTurn_snd (s : State) : ∃ ts d, (nextTurn s).2 = { s with turns := ts, draws := d } := by
  unfold nextTurn
  split
  · exact ⟨_, s.draws, rfl⟩
  · exact ⟨s.turns, _, rfl⟩

theorem nextTurn_cons {u : Turn} (h : s.turns = u :: rest) : nextTurn s = (u, { s with turns := rest }) := by
  simp [nextTurn, h]

/-- A step runs an operation or is an idle turn. -/
theorem step_cases (h : step s = .next t) :
    (∃ i, exec i (nextTurn s).2 = .next t) ∨ t = idleTurn (nextTurn s).1 (nextTurn s).2 := by
  unfold step at h
  split at h
  · cases h; exact .inr rfl
  · split at h
    · exact .inl ⟨_, h⟩
    · cases h

theorem step_rst {l : Bool} (h : s.turns = .rst m l :: rest) :
    step s = .next (setRst m l { s with turns := rest }) := by
  simp [step, nextTurn_cons h, fetchCode, idleTurn]

theorem step_cancel {l : Bool} (h : s.turns = .cancel m l :: rest) :
    step s = .next (setCancel m l { s with turns := rest }) := by
  simp [step, nextTurn_cons h, fetchCode, idleTurn]

theorem step_progress {p : Progress} (h : s.turns = .progress m p :: rest) :
    step s = .next (setProgress m p { s with turns := rest }) := by
  simp [step, nextTurn_cons h, fetchCode, idleTurn]

theorem step_named {op : StepOp} (h : s.turns = .step m op :: rest) :
    step s = exec (decodeStep m op) { s with turns := rest } := by
  simp [step, nextTurn_cons h, fetchCode, decode]

theorem step_agent {a : Agent} (h : s.turns = .agent m a :: rest) :
    step s = .next (agentTurn m { s with turns := rest } a) := by
  have e := agentTurn_eq_exec m { s with turns := rest } a
  simp only [step, nextTurn_cons h, fetchCode]
  cases ho : agentOp s.cfg (s.mcu m) a <;> simp [ho] at e <;> simp [ho, e, idleTurn, decode]

@[simp] theorem setRst_cfg (l : Bool) : (setRst m l s).cfg = s.cfg := by cases l <;> simp [setRst, resetMcu]
@[simp] theorem setRst_turns (l : Bool) : (setRst m l s).turns = s.turns := by cases l <;> simp [setRst, resetMcu]
@[simp] theorem setRst_draws (l : Bool) : (setRst m l s).draws = s.draws := by cases l <;> simp [setRst, resetMcu]
@[simp] theorem setRst_events (l : Bool) : (setRst m l s).events = s.events := by cases l <;> simp [setRst, resetMcu]
@[simp] theorem setRst_mcu_peer (l : Bool) : (setRst m l s).mcu m.peer = s.mcu m.peer := by
  cases l <;> simp [setRst, resetMcu]
@[simp] theorem setRst_true_mcu : (setRst m true s).mcu m = resetRow s.cfg { s.mcu m with rst := true } := by
  simp [setRst]
@[simp] theorem setRst_false_mcu : (setRst m false s).mcu m = { s.mcu m with rst := false } := by
  simp [setRst]

/-- Turns of the agents of an MCU held in reset leave it in the reset state. -/
theorem gapTurns_inReset (l : List Agent) (hr : (s.mcu m).rst = true) (h : InReset s.cfg (s.mcu m)) :
    InReset s.cfg ((l.foldl (gapTurn m) s).mcu m) := by
  have key := gapTurns_keep m (P := fun t => t.cfg = s.cfg ∧ (t.mcu m).rst = true ∧ InReset s.cfg (t.mcu m))
    (fun op a b ⟨hc, hu, hi⟩ hab => by
      refine ⟨hab.1.cfg.trans hc, hab.1.rst.trans hu, ?_⟩
      have hrow := hab.2
      rw [hc] at hrow
      generalize b.mcu m = y at hrow ⊢
      generalize a.mcu m = x at hrow hu hi
      cases hrow <;> first | exact hi | simp_all [InReset, resetRow]) l s ⟨rfl, hr, h⟩
  exact key.2.2

end Sys2Proof.Machine
end

