-- ==== Sys2Proof/Tests/Slice0.lean ====
section
/-! SUPPORT. Tests. The expected values are those of 95_test_vectors.md (V1 to V22, P1 to P6) and of the tables of
30_encoding.md; a `witness_…` theorem gives a state and operands that meet the hypotheses of the statement it is
named after, each clause at the edges of its range. -/

namespace Sys2Proof.Tests

open Sys2Proof Sys2Proof.Machine

/-! ### Small states -/

/-- The parameters of the traces of 95_test_vectors.md: depths 1 and the spec's defaults. -/
def cfg : Config where
  pinBase0 := 2
  pinBase1 := 2
  txqDepth := 1
  rxqDepth := 1
  tSettle := 0
  reportDelayA := 0
  intentOor := 0x00#8
  driveHold := true
  hasCancel := false
  resetOe := 0x00#8

/-- The same with the cancel input present. -/
def cfgCancel : Config := { cfg with hasCancel := true }

/-- An MCU of each role just out of reset. -/
def mcuA : Mcu := Mcu.reset cfg .roleA
/-- See `mcuA`. -/
def mcuB : Mcu := Mcu.reset cfg .roleB

/-- Two MCUs, nothing emitted, these turns to come. -/
def sys (x y : Mcu) (turns : List Turn := []) (c : Config := cfg) : State where
  cfg := c
  mcu0 := x
  mcu1 := y
  events := []
  turns := turns
  draws := 0

/-- What `f` reads of a next state; none for a stop. -/
def got {α : Type} (o : Host.Outcome State Fault Refusal) (f : State → α) : Option α :=
  match o with
  | .next t => some (f t)
  | .fault _ => none
  | .refused _ => none

/-! ### Decoding: every constructor from a word written out from R56, R58 and R61 -/

/-- The slot words of ROLE_A: r = 0, then the counter (R50, R56). -/
theorem test_decode_sel_a_rows :
    decodeTableWord 8 0b00000000 = some (.selA0 .m0) ∧ decodeTableWord 8 0b00000001 = some (.selA1 .m0) ∧
    decodeTableWord 8 0b00000010 = some (.selA2 .m0) ∧ decodeTableWord 8 0b00000011 = some (.selA3 .m0) ∧
    decodeTableWord 8 0b00000100 = some (.selA4 .m0) ∧ decodeTableWord 8 0b00000101 = some (.selA5 .m0) ∧
    decodeTableWord 8 0b00000110 = some (.selA6 .m0) ∧ decodeTableWord 8 0b00000111 = some (.selA7 .m0) := by
  decide

/-- The slot words of ROLE_B: r = 1, then the counter (R50, R56). -/
theorem test_decode_sel_b_rows :
    decodeTableWord 8 0b00001000 = some (.selB0 .m1) ∧ decodeTableWord 8 0b00001001 = some (.selB1 .m1) ∧
    decodeTableWord 8 0b00001010 = some (.selB2 .m1) ∧ decodeTableWord 8 0b00001011 = some (.selB3 .m1) ∧
    decodeTableWord 8 0b00001100 = some (.selB4 .m1) ∧ decodeTableWord 8 0b00001101 = some (.selB5 .m1) ∧
    decodeTableWord 8 0b00001110 = some (.selB6 .m1) ∧ decodeTableWord 8 0b00001111 = some (.selB7 .m1) := by
  decide

/-- The transmitted words of V14 in binary, and three words the arbiter never generates (R58). -/
theorem test_decode_txwords :
    decodeTableWord 8 0b11111110 = some (.drvL0 .m0) ∧ decodeTableWord 8 0b11111101 = some (.drvL1 .m0) ∧
    decodeTableWord 8 0b11111011 = some (.drvL2 .m0) ∧ decodeTableWord 8 0b11110111 = some (.drvL3 .m0) ∧
    decodeTableWord 8 0b11101111 = some (.drvL4 .m0) ∧ decodeTableWord 8 0b11011111 = some (.drvL5 .m0) ∧
    decodeTableWord 8 0b10111111 = some (.drvL6 .m0) ∧ decodeTableWord 8 0b01111111 = some (.drvL7 .m0) ∧
    decodeTableWord 8 0b11111111 = some (.drvNone .m0) ∧
    decodeTableWord 8 0b10101010 = some (.drvAny .m0 0xAA#8) ∧
    (decode .m1 (.txword 0b00000000#8)).toOption = some (.drvAny .m1 0x00#8) ∧
    (decode .m1 (.txword 0b00000011#8)).toOption = some (.drvAny .m1 0x03#8) := by
  decide

/-- The thirteen operations, by their names (R61). -/
theorem test_decode_steps :
    (decode .m1 (.step .selA)).toOption = some (.selA .m1) ∧
    (decode .m0 (.step .selB)).toOption = some (.selB .m0) ∧
    (decode .m0 (.step .enc)).toOption = some (.enc .m0) ∧
    (decode .m0 (.step .inv)).toOption = some (.inv .m0) ∧
    (decode .m1 (.step .submit)).toOption = some (.submit .m1) ∧
    (decode .m0 (.step .retrieve)).toOption = some (.retrieve .m0) ∧
    (decode .m0 (.step .apply)).toOption = some (.apply .m0) ∧
    (decode .m1 (.step .sample)).toOption = some (.sample .m1) ∧
    (decode .m0 (.step .delayA)).toOption = some (.delayA .m0) ∧
    (decode .m0 (.step .report)).toOption = some (.report .m0) ∧
    (decode .m0 (.step .advance)).toOption = some (.advance .m0) ∧
    (decode .m1 (.step .cancel)).toOption = some (.cancel .m1) ∧
    (decode .m0 (.step .runCycle)).toOption = some (.runCycle .m0) := by
  decide

/-- A slot word has four bits: one with bit 4 set is rejected (R50). No format has more than 8 bits. -/
theorem test_decode_rejects :
    (decode .m0 (.slot 0x10#8)).toOption = none ∧ (decode .m1 (.slot 0xFF#8)).toOption = none ∧
    decodeTableWord 16 3 = none ∧ decodeTableWord 8 256 = none := by
  decide

/-- DRV_ANY stands only for a word without a row of its own (R63 (b)). -/
theorem test_wellFormed :
    Instr.wellFormed (.drvAny .m0 0xF7#8) = false ∧ Instr.wellFormed (.drvAny .m1 0xFF#8) = false ∧
    Instr.wellFormed (.drvAny .m0 0x00#8) = true ∧ Instr.wellFormed (.drvAny .m0 0xFC#8) = true ∧
    Instr.wellFormed (.selB7 .m1) = true := by
  decide

/-! ### Values -/

/-- V14: TXW of both roles, counter 0 to 7. -/
theorem test_txw_rows :
    [0#3, 1#3, 2#3, 3#3, 4#3, 5#3, 6#3, 7#3].map (txw cfg .roleA) =
      [0xFE#8, 0xFD#8, 0xFB#8, 0xF7#8, 0xEF#8, 0xDF#8, 0xBF#8, 0x7F#8] ∧
    [0#3, 1#3, 2#3, 3#3, 4#3, 5#3, 6#3, 7#3].map (txw cfg .roleB) =
      [0xFF#8, 0x7F#8, 0xBF#8, 0xDF#8, 0xEF#8, 0xF7#8, 0xFB#8, 0xFD#8] := by
  decide

/-- V12 and V13: indices 8 to 15 give 00; INV of bytes the arbiter never makes. -/
theorem test_enc_inv_edges :
    encodeIndex cfg 7#4 = 0x80#8 ∧ encodeIndex cfg 8#4 = 0x00#8 ∧ encodeIndex cfg 9#4 = 0x00#8 ∧
    encodeIndex cfg 15#4 = 0x00#8 ∧ invert 0xA5#8 = 0x5A#8 ∧ invert 0xFF#8 = 0x00#8 ∧ invert 0x0F#8 = 0xF0#8 := by
  decide

/-- V17: the ten rows of line resolution. -/
theorem test_lines :
    [(0x00#8, 0x00#8), (0x01#8, 0x00#8), (0x00#8, 0x80#8), (0x08#8, 0x20#8), (0x20#8, 0x08#8), (0x10#8, 0x10#8),
      (0x02#8, 0x80#8), (0xFF#8, 0x00#8), (0x0F#8, 0xF0#8), (0x03#8, 0x06#8)].map
        (fun p => line (sys { mcuA with oe := p.1 } { mcuB with oe := p.2 })) =
      [0xFF#8, 0xFE#8, 0x7F#8, 0xD7#8, 0xD7#8, 0xEF#8, 0x7D#8, 0x00#8, 0x00#8, 0xF8#8] := by
  decide

/-- V20: what both observe in lock-step, counter 0 to 7. -/
theorem test_lockstep_patterns :
    [0#3, 1#3, 2#3, 3#3, 4#3, 5#3, 6#3, 7#3].map (fun c => txw cfg .roleA c &&& txw cfg .roleB c) =
      [0xFE#8, 0x7D#8, 0xBB#8, 0xD7#8, 0xEF#8, 0xD7#8, 0xBB#8, 0x7D#8] := by
  decide

/-- V8: the timing literals agree, a 250 kHz tick. -/
theorem test_timing_literals : Config.fRef / Config.tickDiv = 250000 := by decide

/-! ### One operation at a time -/

/-- V10, V14: row `0 011` at counter 3; it shows nothing at counter 4. -/
theorem test_selA3_row :
    got (exec (.selA3 .m0) (sys { mcuA with cnt := 3#3 } mcuB)) (·.events) =
      some [.slotRow .m0 3#4 0x08#8 0xF7#8] ∧
    got (exec (.selA3 .m0) (sys { mcuA with cnt := 4#3 } mcuB)) (·.events) = some [] := by
  decide

/-- V2: row `1 000`; index 8, nothing pulled. -/
theorem test_selB0_row :
    got (exec (.selB0 .m1) (sys mcuA mcuB)) (·.events) = some [.slotRow .m1 8#4 0x00#8 0xFF#8] := by
  decide

/-- V11: SEL_B at counter 1 and 7; SEL_A does not apply to ROLE_B. -/
theorem test_selB :
    got (exec (.selB .m1) (sys mcuA { mcuB with cnt := 1#3 })) (·.events) = some [.index .m1 7#4] ∧
    got (exec (.selB .m1) (sys mcuA { mcuB with cnt := 7#3 })) (·.events) = some [.index .m1 1#4] ∧
    got (exec (.selA .m1) (sys mcuA mcuB)) (·.events) = some [] := by
  decide

/-- V10: SEL_A at counter 7. -/
theorem test_selA :
    got (exec (.selA .m0) (sys { mcuA with cnt := 7#3 } mcuB)) (·.events) = some [.index .m0 7#4] := by
  decide

/-- V1: ENC and INV of ROLE_A at counter 3. -/
theorem test_enc_inv :
    got (exec (.enc .m0) (sys { mcuA with cnt := 3#3 } mcuB)) (·.events) = some [.intent .m0 0x08#8] ∧
    got (exec (.inv .m0) (sys { mcuA with cnt := 3#3 } mcuB)) (·.events) = some [.txword .m0 0xF7#8] := by
  decide

/-- V15, first row and the blocked third row. -/
theorem test_submit :
    got (exec (.submit .m0) (sys { mcuA with cnt := 3#3 } mcuB)) (fun t => (t.mcu0.ph, t.mcu0.txq)) =
      some (.retrieve, [0xF7#8]) ∧
    got (exec (.submit .m0) (sys { mcuA with txq := [0xAA#8] } mcuB)) (fun t => (t.mcu0.ph, t.mcu0.txq)) =
      some (.submit, [0xAA#8]) := by
  decide

/-- V15, fourth row: a second entry goes behind the first. -/
theorem test_submit_order :
    got (exec (.submit .m0) (sys { mcuA with txq := [0xAA#8] } mcuB [] { cfg with txqDepth := 2 }))
      (fun t => t.mcu0.txq) = some [0xAA#8, 0xFE#8] := by
  decide

/-- V16: line 3 released and line 4 pulled in one step; in E_SETTLE nothing is applied. -/
theorem test_apply :
    got (exec (.apply .m0) (sys { mcuA with txq := [0xEF#8], oe := 0x08#8 } mcuB))
      (fun t => (t.mcu0.eph, t.mcu0.txq, t.mcu0.oe)) = some (.settle, [], 0x10#8) ∧
    got (exec (.apply .m0) (sys { mcuA with txq := [0xFD#8], oe := 0x08#8, eph := .settle } mcuB))
      (fun t => (t.mcu0.txq, t.mcu0.oe)) = some ([0xFD#8], 0x08#8) := by
  decide

/-- V16: the rows of the pad driver; a word that is not the row's is not applied by it. -/
theorem test_drive_rows :
    got (exec (.drvL7 .m1) (sys mcuA { mcuB with txq := [0x7F#8] })) (·.mcu1.oe) = some 0x80#8 ∧
    got (exec (.drvNone .m0) (sys { mcuA with txq := [0xFF#8], oe := 0x80#8 } mcuB)) (·.mcu0.oe) = some 0x00#8 ∧
    got (exec (.drvAny .m0 0x00#8) (sys { mcuA with txq := [0x00#8] } mcuB)) (·.mcu0.oe) = some 0xFF#8 ∧
    got (exec (.drvL0 .m0) (sys { mcuA with txq := [0xFD#8] } mcuB)) (·.mcu0.txq) = some [0xFD#8] := by
  decide

/-- V17: the sample of 08 and 20 by either MCU; OE stays. -/
theorem test_sample :
    got (exec (.sample .m1) (sys { mcuA with oe := 0x08#8 } { mcuB with oe := 0x20#8, eph := .settle }))
      (fun t => (t.mcu1.rxq, t.mcu1.oe, t.mcu1.eph)) = some ([0xD7#8], 0x20#8, .idle) := by
  decide

/-- R139: with DRIVE_HOLD = false the sample sees the drive and then releases it. -/
theorem test_sample_release :
    got (exec (.sample .m0) (sys { mcuA with oe := 0x08#8, eph := .settle } mcuB [] { cfg with driveHold := false }))
      (fun t => (t.mcu0.rxq, t.mcu0.oe)) = some ([0xF7#8], 0x00#8) := by
  decide

/-- V18. -/
theorem test_retrieve :
    got (exec (.retrieve .m0) (sys { mcuA with ph := .retrieve, rxq := [0xD7#8] } mcuB))
      (fun t => (t.mcu0.ph, t.mcu0.rxq, t.mcu0.obsl)) = some (.report, [], 0xD7#8) ∧
    got (exec (.retrieve .m0) (sys { mcuA with ph := .retrieve } mcuB)) (·.mcu0.ph) = some .retrieve := by
  decide

/-- V19: both REPORT rows. -/
theorem test_report :
    got (exec (.report .m0) (sys { mcuA with cnt := 3#3, ph := .report, obsl := 0xD7#8 } mcuB))
      (fun t => (t.mcu0.ph, t.events)) = some (.advance, [.report .m0 .roleA 0xF7#8 0xD7#8]) ∧
    got (exec (.report .m1) (sys mcuA { mcuB with ph := .report, obsl := 0xFE#8 })) (·.events) =
      some [.report .m1 .roleB 0xFF#8 0xFE#8] := by
  decide

/-- V19: 3 to 4, and the wrap from 7 to 0. -/
theorem test_advance :
    got (exec (.advance .m0) (sys { mcuA with cnt := 3#3, ph := .advance } mcuB)) (fun t => (t.mcu0.cnt, t.mcu0.ph)) =
      some (4#3, .submit) ∧
    got (exec (.advance .m0) (sys { mcuA with cnt := 7#3, ph := .advance } mcuB)) (·.mcu0.cnt) = some 0#3 := by
  decide

/-- V19: CANCEL at counter 5 with OE kept; not enabled in PH_RETRIEVE or without HAS_CANCEL. -/
theorem test_cancel :
    got (exec (.cancel .m0) (sys { mcuA with cnt := 5#3, oe := 0x10#8, cancel := true } mcuB [] cfgCancel))
      (fun t => (t.mcu0.cnt, t.mcu0.ph, t.mcu0.oe, t.mcu0.txq)) = some (5#3, .halt, 0x10#8, []) ∧
    got (exec (.cancel .m0) (sys { mcuA with ph := .retrieve, cancel := true } mcuB [] cfgCancel)) (·.mcu0.ph) =
      some .retrieve ∧
    got (exec (.cancel .m0) (sys { mcuA with cancel := true } mcuB)) (·.mcu0.ph) = some .submit := by
  decide

/-- R100: DELAY_A changes nothing. -/
theorem test_delayA :
    got (exec (.delayA .m0) (sys { mcuA with ph := .report, obsl := 0xD7#8 } mcuB)) id =
      some (sys { mcuA with ph := .report, obsl := 0xD7#8 } mcuB) := by
  decide

/-- R106: RUNCYCLE starts in PH_SUBMIT; in PH_RETRIEVE the caller waits. -/
theorem test_runCycle_waits :
    got (exec (.runCycle .m0) (sys { mcuA with ph := .retrieve } mcuB)) (fun t => (t.mcu0.ph, t.events)) =
      some (.retrieve, []) := by
  decide

/-- V1, R106: the steps of RUNCYCLE at counter 3, with no step of the peer between them, return (F7, F7). -/
theorem test_cycle_steps :
    let t := report .m0 (retrieve .m0 (sample .m0 (apply .m0 (submit .m0 (sys { mcuA with cnt := 3#3 } mcuB)))))
    (t.mcu0.txword cfg, t.mcu0.obsl, t.events.head?) =
      (0xF7#8, 0xF7#8, some (.report .m0 .roleA 0xF7#8 0xF7#8)) := by
  decide

/-- R106, R95 (d): a RUNCYCLE whose engine stops is left waiting in PH_RETRIEVE, before its APPLY or before its SAMPLE. -/
theorem test_cycle_stops :
    [Progress.takesNoWord, .givesNoResult].map (fun p =>
      let t := report .m0 (retrieve .m0 (whileGoing .m0 (sample .m0) (whileGoing .m0 (apply .m0)
        (submit .m0 (sys { mcuA with cnt := 3#3, progress := p } mcuB)))));
      (t.mcu0.ph, t.mcu0.txq, t.mcu0.oe, t.events)) =
    [(.retrieve, [0xF7#8], 0x00#8, []), (.retrieve, [], 0x08#8, [.apply .m0 0xF7#8])] := by
  decide

/-- V22: warm reset in mid-transfer; the peer is untouched. -/
theorem test_reset :
    got (step (sys { mcuA with cnt := 4#3, ph := .retrieve, oe := 0x08#8, txq := [0xEF#8] }
        { mcuB with cnt := 5#3, oe := 0x40#8 } [.rst .m0 true]))
      (fun t => (t.mcu0.cnt, t.mcu0.ph, t.mcu0.oe, t.mcu0.txq, t.mcu1.cnt, t.mcu1.oe)) =
      some (0#3, .submit, 0x00#8, [], 5#3, 0x40#8) := by
  decide

/-! ### The step -/

/-- An agent's phase selects its operation: the arbiter after reset submits FE (V22). -/
theorem test_step_agent :
    got (step (sys mcuA mcuB [.agent .m0 .arbiter])) (fun t => (t.mcu0.ph, t.mcu0.txq)) =
      some (.retrieve, [0xFE#8]) := by
  decide

/-- A word of the table placed at reset is the one the next step runs. -/
theorem test_withFetchWord :
    got (step (State.reset.withFetchWord 8 0xF7)) (fun t => (t.mcu0.oe, t.events)) =
      some (0x08#8, [.apply .m0 0xF7#8]) ∧
    got (step (State.reset.withFetchWord 8 0x0B)) (·.events) = some [.slotRow .m1 5#4 0x20#8 0xDF#8] ∧
    got (step (State.reset.withFetchWord 8 0x03)) (·.events) = some [.slotRow .m0 3#4 0x08#8 0xF7#8] := by
  decide

/-! ### Witnesses: the hypotheses of each statement are met -/

theorem witness_DecodeReadsEncodedInstr :
    Instr.wellFormed (.selB7 .m1) = true ∧ Instr.wellFormed (.drvAny .m0 0x00#8) = true ∧
    Instr.wellFormed (.runCycle .m1) = true := by decide

theorem witness_DecodedCodeIsTheOneEncoded :
    decode .m0 (.slot 0x0F#8) = .ok (.selB7 .m0) ∧ decode .m1 (.txword 0xFC#8) = .ok (.drvAny .m1 0xFC#8) ∧
    decode .m0 (.step .cancel) = .ok (.cancel .m0) := ⟨rfl, rfl, rfl⟩

theorem witness_SlotWordsHaveFourBits :
    (0x0F#8).toNat < 16 ∧ 16 ≤ (0x10#8).toNat ∧ 16 ≤ (0xFF#8).toNat := by decide

theorem witness_CodeTableRows : cfg.intentOor = 0x00#8 := rfl

theorem witness_SelARowsShowTheirCodes :
    ∀ c : Fin 8, ((sys { mcuA with cnt := .ofFin c } mcuB).mcu .m0).role = .roleA ∧
      ((sys { mcuA with cnt := .ofFin c } mcuB).mcu .m0).cnt = BitVec.ofNat 3 c := by decide

theorem witness_SelBRowsShowTheirCodes :
    ∀ c : Fin 8, ((sys mcuA { mcuB with cnt := .ofFin c }).mcu .m1).role = .roleB ∧
      ((sys mcuA { mcuB with cnt := .ofFin c }).mcu .m1).cnt = BitVec.ofNat 3 c := by decide

theorem witness_OtherSlotRowsShowNothing :
    ((sys mcuA mcuB).mcu .m1).role ≠ .roleA ∧ ((sys mcuA mcuB).mcu .m0).role ≠ .roleB ∧
    ∀ c : Fin 8, ((sys { mcuA with cnt := .ofFin (c + 1) } mcuB).mcu .m0).cnt ≠ BitVec.ofNat 3 c := by decide

theorem witness_SelAShowsTheCounter : ((sys mcuA mcuB).mcu .m0).role = .roleA := rfl

theorem witness_SelBShowsEightMinusTheCounter : ((sys mcuA mcuB).mcu .m1).role = .roleB := rfl

theorem witness_SlotTurnShowsTheOwnRow : (sys mcuA mcuB [.slot .m1]).turns = .slot .m1 :: [] := rfl

theorem witness_EncShowsTheOneHotPattern :
    7#4 = indexOf ((sys { mcuA with cnt := 7#3 } mcuB).mcu .m0).role ((sys { mcuA with cnt := 7#3 } mcuB).mcu .m0).cnt ∧
    8#4 = indexOf ((sys mcuA mcuB).mcu .m1).role ((sys mcuA mcuB).mcu .m1).cnt := by decide

theorem witness_IndexEightPullsNoLine : 8#4 < 9#4 ∧ 8#4 < 15#4 ∧ cfg.intentOor = 0x00#8 := by decide

theorem witness_TransmittedWordLaws : cfg.intentOor = 0x00#8 := rfl

theorem witness_LineIsLowWhereAnyMcuPulls : 0 < 8 ∧ 7 < 8 := by decide

theorem witness_ContentionIsInvisible :
    contended (sys { mcuA with oe := 0x10#8 } { mcuB with oe := 0x10#8 }) 4 = true := by decide

theorem witness_LinesAvoidTheReservedPins :
    cfg.wf ∧ cfg.pinBase .m0 = 2 ∧ ({ cfg with pinBase1 := 5 } : Config).wf := by decide

theorem witness_PortsReadTheStepRules :
    mcuA = (sys mcuA mcuB).mcu .m0 ∧ ({ mcuA with rxq := [0xD7#8] } : Mcu).rxq = 0xD7#8 :: [] := ⟨rfl, rfl⟩

/-- Each clause: SUBMIT enabled at depth 1; another phase; TXQ full; cancelled. -/
theorem witness_SubmitPushesTheWord :
    (((sys mcuA mcuB).mcu .m0).rst = false ∧ ((sys mcuA mcuB).mcu .m0).ph = .submit ∧
      ((sys mcuA mcuB).mcu .m0).txq.length < (sys mcuA mcuB).cfg.txqDepth ∧
      ¬((sys mcuA mcuB).cfg.hasCancel = true ∧ ((sys mcuA mcuB).mcu .m0).cancel = true)) ∧
    (∃ t, exec (.submit .m0) (sys { mcuA with ph := .retrieve } mcuB) = .next t) ∧
    (∃ t, cfg.txqDepth ≤ ((sys { mcuA with txq := [0xAA#8] } mcuB).mcu .m0).txq.length ∧
      exec (.submit .m0) (sys { mcuA with txq := [0xAA#8] } mcuB) = .next t) ∧
    (∃ t, cfgCancel.hasCancel = true ∧ ((sys { mcuA with cancel := true } mcuB [] cfgCancel).mcu .m0).cancel = true ∧
      exec (.submit .m0) (sys { mcuA with cancel := true } mcuB [] cfgCancel) = .next t) :=
  ⟨by decide, ⟨_, rfl⟩, ⟨_, by decide, rfl⟩, ⟨_, rfl, rfl, rfl⟩⟩

theorem witness_ApplyDrivesTheOldestWord :
    (((sys { mcuA with txq := [0xF7#8] } mcuB).mcu .m0).rst = false ∧
      ((sys { mcuA with txq := [0xF7#8] } mcuB).mcu .m0).eph = .idle ∧
      ((sys { mcuA with txq := [0xF7#8] } mcuB).mcu .m0).txq = 0xF7#8 :: []) ∧
    (∃ t, ((sys { mcuA with eph := .settle } mcuB).mcu .m0).eph = .settle ∧
      exec (.apply .m0) (sys { mcuA with eph := .settle } mcuB) = .next t) ∧
    (∃ t, ((sys mcuA mcuB).mcu .m0).txq = [] ∧ exec (.apply .m0) (sys mcuA mcuB) = .next t) :=
  ⟨by decide, ⟨_, rfl, rfl⟩, ⟨_, rfl, rfl⟩⟩

/-- Each of the nine words at the head of TXQ. -/
theorem witness_DriveRowsSetTheirEnables :
    ∀ w ∈ generatedWords, ((sys { mcuA with txq := [w] } mcuB).mcu .m0).rst = false ∧
      ((sys { mcuA with txq := [w] } mcuB).mcu .m0).eph = .idle ∧
      ((sys { mcuA with txq := [w] } mcuB).mcu .m0).txq = w :: [] := by decide

theorem witness_DriveAnyPullsEveryZeroBit :
    ∀ w ∈ [0x00#8, 0x03#8, 0xFF#8], ((sys mcuA { mcuB with txq := [w] }).mcu .m1).rst = false ∧
      ((sys mcuA { mcuB with txq := [w] }).mcu .m1).eph = .idle ∧
      ((sys mcuA { mcuB with txq := [w] }).mcu .m1).txq = w :: [] := by decide

theorem witness_PadTurnAppliesTheHeadWord :
    (sys { mcuA with txq := [0xEF#8] } mcuB [.pads .m0]).turns = .pads .m0 :: [] ∧
    ((sys { mcuA with txq := [0xEF#8] } mcuB [.pads .m0]).mcu .m0).rst = false ∧
    ((sys { mcuA with txq := [0xEF#8] } mcuB [.pads .m0]).mcu .m0).eph = .idle ∧
    ((sys { mcuA with txq := [0xEF#8] } mcuB [.pads .m0]).mcu .m0).txq = 0xEF#8 :: [] := by decide

/-- Each clause: SAMPLE enabled at depth 1; E_IDLE; RXQ full. -/
theorem witness_SampleLatchesTheLines :
    (((sys { mcuA with eph := .settle } mcuB).mcu .m0).rst = false ∧
      ((sys { mcuA with eph := .settle } mcuB).mcu .m0).eph = .settle ∧
      ((sys { mcuA with eph := .settle } mcuB).mcu .m0).rxq.length < cfg.rxqDepth) ∧
    (∃ t, ((sys mcuA mcuB).mcu .m0).eph = .idle ∧ exec (.sample .m0) (sys mcuA mcuB) = .next t) ∧
    (∃ t, cfg.rxqDepth ≤ ((sys { mcuA with eph := .settle, rxq := [0x00#8] } mcuB).mcu .m0).rxq.length ∧
      exec (.sample .m0) (sys { mcuA with eph := .settle, rxq := [0x00#8] } mcuB) = .next t) :=
  ⟨by decide, ⟨_, rfl, rfl⟩, ⟨_, by decide, rfl⟩⟩

theorem witness_RetrieveTakesTheOldestResult :
    (((sys { mcuA with ph := .retrieve, rxq := [0xD7#8] } mcuB).mcu .m0).rst = false ∧
      ((sys { mcuA with ph := .retrieve, rxq := [0xD7#8] } mcuB).mcu .m0).ph = .retrieve ∧
      ((sys { mcuA with ph := .retrieve, rxq := [0xD7#8] } mcuB).mcu .m0).rxq = 0xD7#8 :: []) ∧
    (∃ t, ((sys mcuA mcuB).mcu .m0).ph ≠ .retrieve ∧ exec (.retrieve .m0) (sys mcuA mcuB) = .next t) ∧
    (∃ t, ((sys { mcuA with ph := .retrieve } mcuB).mcu .m0).rxq = [] ∧
      exec (.retrieve .m0) (sys { mcuA with ph := .retrieve } mcuB) = .next t) :=
  ⟨by decide, ⟨_, by decide, rfl⟩, ⟨_, rfl, rfl⟩⟩

/-- ROLE_A at counter 3 after its APPLY, ROLE_B just out of reset. -/
theorem witness_IsolatedSampleIsTheOwnWord :
    let s := sys { mcuA with cnt := 3#3, ph := .retrieve, oe := 0x08#8, eph := .settle } mcuB
    (s.mcu .m0).rst = false ∧ (s.mcu .m0).eph = .settle ∧ (s.mcu .m0).rxq.length < s.cfg.rxqDepth ∧
    (s.mcu .m0).oe = (s.mcu .m0).intent s.cfg ∧ (s.mcu McuId.m0.peer).oe = 0x00#8 := by decide

/-- Lock-step at counter 3 (V20). -/
theorem witness_SameTickSamplesCompose :
    let s := sys { mcuA with cnt := 3#3, ph := .retrieve, txq := [0xF7#8] }
      { mcuB with cnt := 3#3, ph := .retrieve, txq := [0xDF#8] }
    s.cfg.driveHold = true ∧
    (s.mcu .m0).rst = false ∧ (s.mcu .m0).eph = .idle ∧ (s.mcu .m0).txq = 0xF7#8 :: [] ∧
    (s.mcu .m0).rxq.length < s.cfg.rxqDepth ∧
    (s.mcu McuId.m0.peer).rst = false ∧ (s.mcu McuId.m0.peer).eph = .idle ∧
    (s.mcu McuId.m0.peer).txq = 0xDF#8 :: [] ∧ (s.mcu McuId.m0.peer).rxq.length < s.cfg.rxqDepth := by decide

theorem witness_SampleSeesPeerBeforeOrAfter :
    let s := sys { mcuA with oe := 0x01#8, eph := .settle } { mcuB with txq := [0x7F#8] }
    (s.mcu .m0).rst = false ∧ (s.mcu .m0).eph = .settle ∧ (s.mcu .m0).rxq.length < s.cfg.rxqDepth ∧
    (s.mcu McuId.m0.peer).rst = false ∧ (s.mcu McuId.m0.peer).eph = .idle ∧
    (s.mcu McuId.m0.peer).txq = 0x7F#8 :: [] := by decide

/-- One state per clause. -/
theorem witness_OperationsNotEnabledWait :
    ((sys mcuA mcuB).mcu .m0).rst = false ∧
    ((sys { mcuA with ph := .halt } mcuB).mcu .m0).ph ≠ .submit ∧
    cfg.txqDepth ≤ ((sys { mcuA with txq := [0xAA#8] } mcuB).mcu .m0).txq.length ∧
    (cfgCancel.hasCancel = true ∧ ((sys { mcuA with cancel := true } mcuB [] cfgCancel).mcu .m0).cancel = true) ∧
    ((sys { mcuA with eph := .settle } mcuB).mcu .m0).eph = .settle ∧ ((sys mcuA mcuB).mcu .m0).txq = [] ∧
    ((sys mcuA mcuB).mcu .m0).eph = .idle ∧
    cfg.rxqDepth ≤ ((sys { mcuA with rxq := [0xD7#8] } mcuB).mcu .m0).rxq.length ∧
    ((sys mcuA mcuB).mcu .m0).ph ≠ .retrieve ∧ ((sys mcuA mcuB).mcu .m0).rxq = [] ∧
    ((sys mcuA mcuB).mcu .m0).ph ≠ .report ∧ ((sys mcuA mcuB).mcu .m0).ph ≠ .advance ∧
    cfg.hasCancel = false ∧ ((sys mcuA mcuB [] cfgCancel).mcu .m0).cancel = false ∧
    (∀ w ∈ generatedWords, ((sys { mcuA with txq := [0xAA#8] } mcuB).mcu .m0).txq.head? ≠ some w) := by decide

theorem witness_ReportEmitsTheTriple :
    (((sys { mcuA with ph := .report } mcuB).mcu .m0).rst = false ∧
      ((sys { mcuA with ph := .report } mcuB).mcu .m0).ph = .report) ∧
    (∃ t, ((sys mcuA mcuB).mcu .m0).ph ≠ .report ∧ exec (.report .m0) (sys mcuA mcuB) = .next t) :=
  ⟨by decide, ⟨_, by decide, rfl⟩⟩

theorem witness_AdvanceStepsTheCounter :
    (((sys { mcuA with cnt := 7#3, ph := .advance } mcuB).mcu .m0).rst = false ∧
      ((sys { mcuA with cnt := 7#3, ph := .advance } mcuB).mcu .m0).ph = .advance) ∧
    (∃ t, ((sys mcuA mcuB).mcu .m0).ph ≠ .advance ∧ exec (.advance .m0) (sys mcuA mcuB) = .next t) :=
  ⟨by decide, ⟨_, by decide, rfl⟩⟩

/-- Each clause: cancelled in PH_SUBMIT; no cancel input; another phase; cancel = 0; halted. -/
theorem witness_CancelHaltsTheArbiter :
    (((sys { mcuA with cancel := true } mcuB [] cfgCancel).mcu .m0).rst = false ∧ cfgCancel.hasCancel = true ∧
      ((sys { mcuA with cancel := true } mcuB [] cfgCancel).mcu .m0).ph = .submit ∧
      ((sys { mcuA with cancel := true } mcuB [] cfgCancel).mcu .m0).cancel = true ∧
      ∃ t, exec (.submit .m0) (sys { mcuA with cancel := true } mcuB [] cfgCancel) = .next t) ∧
    (∃ t, cfg.hasCancel = false ∧ exec (.cancel .m0) (sys { mcuA with cancel := true } mcuB) = .next t) ∧
    (∃ t, ((sys { mcuA with ph := .retrieve, cancel := true } mcuB [] cfgCancel).mcu .m0).ph ≠ .submit ∧
      exec (.cancel .m0) (sys { mcuA with ph := .retrieve, cancel := true } mcuB [] cfgCancel) = .next t) ∧
    (∃ t, ((sys mcuA mcuB [] cfgCancel).mcu .m0).cancel = false ∧
      exec (.cancel .m0) (sys mcuA mcuB [] cfgCancel) = .next t) ∧
    (∃ t, ((sys { mcuA with ph := .halt } mcuB [] cfgCancel).mcu .m0).ph = .halt ∧
      exec (.advance .m0) (sys { mcuA with ph := .halt } mcuB [] cfgCancel) = .next t) :=
  ⟨⟨rfl, rfl, rfl, rfl, _, rfl⟩, ⟨_, rfl, rfl⟩, ⟨_, by decide, rfl⟩, ⟨_, rfl, rfl⟩, ⟨_, rfl, rfl⟩⟩

/-- What the start of a RUNCYCLE or of an iteration asks for: PH_SUBMIT, nothing in flight, not cancelled. -/
abbrev Ready (s : State) (m : McuId) : Prop :=
  (s.mcu m).rst = false ∧ (s.mcu m).ph = .submit ∧ (s.mcu m).eph = .idle ∧ (s.mcu m).txq = [] ∧
  (s.mcu m).rxq = [] ∧ 1 ≤ s.cfg.txqDepth ∧ 1 ≤ s.cfg.rxqDepth ∧
  ¬(s.cfg.hasCancel = true ∧ (s.mcu m).cancel = true)

/-- Both roles at a boundary of the counter, and each progress of the engine. The state `seen` and the words are given by
equations, so they always exist. -/
theorem witness_RunCycleReturnsWordAndPattern :
    Ready (sys mcuA mcuB) .m1 ∧ Ready (sys { mcuA with cnt := 7#3, oe := 0x40#8 } mcuB) .m0 ∧
    (∀ p ∈ [Progress.goesOn, .takesNoWord, .givesNoResult],
      Ready (sys { mcuA with progress := p } mcuB) .m0 ∧ ((sys { mcuA with progress := p } mcuB).mcu .m0).progress = p) ∧
    ∀ (s : State) (m : McuId), ∃ w v seen, w = txw s.cfg (s.mcu m).role (s.mcu m).cnt ∧
      seen = peerGap m (apply m (peerGap m (submit m s))) ∧ v = w &&& (seen.mcu m.peer).shown :=
  ⟨by decide, by decide, by decide, fun _ _ => ⟨_, _, _, rfl, rfl, rfl⟩⟩

theorem witness_IsolatedRunCycleReturnsItsWord :
    let s := sys { mcuA with cnt := 3#3 } { mcuB with rst := true }
    Ready s .m0 ∧ s.cfg.wf ∧ (s.mcu .m0).progress = .goesOn ∧ (s.mcu McuId.m0.peer).rst = true ∧ (s.mcu McuId.m0.peer).oe = 0x00#8 ∧
    s.cfg.resetOe = 0x00#8 := by decide

theorem witness_IterationRunsInOrder :
    let s := sys { mcuA with cnt := 3#3 } { mcuB with oe := 0x20#8 }
    Ready s .m0 ∧ 0xF7#8 = (s.mcu .m0).txword s.cfg ∧ 0xD7#8 = 0xF7#8 &&& ~~~(s.mcu McuId.m0.peer).oe := by decide

theorem witness_CounterAfterIterations :
    Ready (sys mcuA mcuB) .m0 ∧ ((sys mcuA mcuB).mcu .m0).cnt = 0#3 := by decide

/-- One phase per clause of the sequencer's table, and both phases of the engine. -/
theorem witness_AgentTurnsFollowThePhases :
    (∀ p ∈ [Phase.submit, .retrieve, .report, .advance, .halt],
      (sys { mcuA with ph := p } mcuB [.agent .m0 .arbiter]).turns = .agent .m0 .arbiter :: [] ∧
      ((sys { mcuA with ph := p } mcuB [.agent .m0 .arbiter]).mcu .m0).ph = p) ∧
    ((sys { mcuA with cancel := true } mcuB [.agent .m0 .arbiter] cfgCancel).cfg.hasCancel = true ∧
      ((sys { mcuA with cancel := true } mcuB [.agent .m0 .arbiter] cfgCancel).mcu .m0).cancel = true) ∧
    (∀ e ∈ [EnginePhase.idle, .settle],
      (sys { mcuA with eph := e } mcuB [.agent .m0 .engine]).turns = .agent .m0 .engine :: [] ∧
      ((sys { mcuA with eph := e } mcuB [.agent .m0 .engine]).mcu .m0).eph = e) := by decide

/-- One operation, and a RUNCYCLE of the MCU's own. -/
theorem witness_PhaseChangesAreThoseOfTheTable :
    (∃ t, Instr.submit .m0 ≠ .runCycle McuId.m0.peer ∧ exec (.submit .m0) (sys mcuA mcuB) = .next t) ∧
    (∃ t, Instr.runCycle .m0 ≠ .runCycle McuId.m0.peer ∧ exec (.runCycle .m0) (sys mcuA mcuB) = .next t) :=
  ⟨⟨_, by decide, rfl⟩, ⟨_, by decide, rfl⟩⟩

theorem witness_CounterIsWrittenByAdvanceAlone :
    (∃ t, Instr.advance .m0 ≠ .runCycle McuId.m0.peer ∧
      exec (.advance .m0) (sys { mcuA with ph := .advance } mcuB) = .next t) ∧
    (∃ t, Instr.runCycle .m0 ≠ .runCycle McuId.m0.peer ∧ exec (.runCycle .m0) (sys mcuA mcuB) = .next t) :=
  ⟨⟨_, by decide, rfl⟩, ⟨_, by decide, rfl⟩⟩

theorem witness_LatchIsWrittenByRetrieveAlone :
    (∃ t, Instr.retrieve .m0 ≠ .runCycle McuId.m0.peer ∧
      exec (.retrieve .m0) (sys { mcuA with ph := .retrieve, rxq := [0xD7#8] } mcuB) = .next t ∧
      ((sys { mcuA with ph := .retrieve, rxq := [0xD7#8] } mcuB).mcu .m0).rst = false) ∧
    (∃ t, Instr.runCycle .m0 ≠ .runCycle McuId.m0.peer ∧ exec (.runCycle .m0) (sys mcuA mcuB) = .next t ∧
      ((sys mcuA mcuB).mcu .m0).rst = false) :=
  ⟨⟨_, by decide, rfl, rfl⟩, ⟨_, by decide, rfl, rfl⟩⟩

theorem witness_DriveIsHeldUntilTheNextApply :
    (∃ t, Instr.apply .m0 ≠ .runCycle McuId.m0.peer ∧
      exec (.apply .m0) (sys { mcuA with txq := [0xF7#8] } mcuB) = .next t ∧
      (sys { mcuA with txq := [0xF7#8] } mcuB).cfg.driveHold = true ∧
      ((sys { mcuA with txq := [0xF7#8] } mcuB).mcu .m0).rst = false) ∧
    (∃ t, Instr.runCycle .m0 ≠ .runCycle McuId.m0.peer ∧ exec (.runCycle .m0) (sys mcuA mcuB) = .next t ∧
      (sys mcuA mcuB).cfg.driveHold = true ∧ ((sys mcuA mcuB).mcu .m0).rst = false) :=
  ⟨⟨_, by decide, rfl, rfl, rfl⟩, ⟨_, by decide, rfl, rfl, rfl⟩⟩

/-- A sample of one MCU; and, in a RUNCYCLE of MCU 0, a property of the registers of MCU 1 that each of its operations
keeps: its ROLE. -/
theorem witness_PeerRegistersAreUntouched :
    (∃ t, composite (.sample .m1) = false ∧ exec (.sample .m1) (sys mcuA { mcuB with eph := .settle }) = .next t) ∧
    (∃ t, exec (.runCycle .m0) (sys mcuA mcuB) = .next t ∧
      (∀ (u v : State), u.cfg = cfg → (u.mcu McuId.m0.peer).role = .roleB →
        ∀ i ∈ [Instr.submit .m1, .retrieve .m1, .report .m1, .advance .m1, .cancel .m1, .apply .m1, .sample .m1],
          exec i u = .next v → (v.mcu McuId.m0.peer).role = .roleB) ∧
      ((sys mcuA mcuB).mcu McuId.m0.peer).role = .roleB) := by
  refine ⟨⟨_, rfl, rfl⟩, ⟨_, rfl, fun u v _ hr i hi hv => ?_, rfl⟩⟩
  have key : composite i = false ∧ i.mcu = .m1 := by
    simp only [List.mem_cons, List.not_mem_nil, or_false] at hi
    rcases hi with rfl | rfl | rfl | rfl | rfl | rfl | rfl <;> exact ⟨rfl, rfl⟩
  have h := (exec_row key.1 hv).1.role
  rw [key.2] at h
  exact h.trans hr

/-- The own registers are the same, the peer's are not; a SAMPLE and a RUNCYCLE. -/
theorem witness_OwnControlDependsOnOwnRegisters :
    (let s := sys { mcuA with eph := .settle } mcuB
    let t := sys { mcuA with eph := .settle } { mcuB with oe := 0x20#8, ph := .report }
    ∃ s' t', s.cfg = t.cfg ∧ s.mcu .m0 = t.mcu .m0 ∧
      exec (.sample .m0) s = .next s' ∧ exec (.sample .m0) t = .next t') ∧
    (let s := sys mcuA mcuB
    let t := sys mcuA { mcuB with oe := 0x20#8, ph := .report }
    ∃ s' t', s.cfg = t.cfg ∧ s.mcu .m0 = t.mcu .m0 ∧
      exec (.runCycle .m0) s = .next s' ∧ exec (.runCycle .m0) t = .next t') :=
  ⟨⟨_, _, rfl, rfl, rfl, rfl⟩, ⟨_, _, rfl, rfl, rfl, rfl⟩⟩

/-- Both levels of the input. -/
theorem witness_ResetInputResetsOneMcu :
    (sys { mcuA with ph := .halt } mcuB [.rst .m0 true]).turns = .rst .m0 true :: [] ∧
    (sys { mcuA with rst := true } mcuB [.rst .m0 false]).turns = .rst .m0 false :: [] := ⟨rfl, rfl⟩

theorem witness_ResetBeatsEveryStep :
    ((sys { mcuA with rst := true, ph := .advance } mcuB).mcu .m0).rst = true := rfl

theorem witness_FirstWordAfterReset :
    let s := sys mcuA { mcuB with cnt := 5#3, oe := 0x08#8 } [.rst .m1 true, .rst .m1 false, .agent .m1 .arbiter]
    s.turns = .rst .m1 true :: .rst .m1 false :: .agent .m1 .arbiter :: [] ∧ 1 ≤ s.cfg.txqDepth ∧
    s.cfg.hasCancel = false ∧ s.cfg.intentOor = 0x00#8 := by decide

theorem witness_CancelInputChangesNothingElse :
    (sys mcuA mcuB [.cancel .m0 true]).turns = .cancel .m0 true :: [] ∧
    (sys mcuA mcuB [.progress .m1 .takesNoWord]).turns = .progress .m1 .takesNoWord :: [] := ⟨rfl, rfl⟩

/-- A turn given from outside; a turn of the schedule; a code that decodes; a turn that reads none. -/
theorem witness_StepRunsTheDecodedInstr :
    (sys mcuA mcuB [.agent .m0 .arbiter]).turns = .agent .m0 .arbiter :: [] ∧ (sys mcuA mcuB).turns = [] ∧
    (fetchCode (nextTurn (sys mcuA mcuB [.agent .m0 .arbiter])).1 (nextTurn (sys mcuA mcuB [.agent .m0 .arbiter])).2 =
      some (.m0, .step .submit) ∧ decode .m0 (.step .submit) = .ok (.submit .m0)) ∧
    fetchCode (nextTurn (sys mcuA mcuB [.pads .m0])).1 (nextTurn (sys mcuA mcuB [.pads .m0])).2 = none :=
  ⟨rfl, rfl, ⟨rfl, rfl⟩, rfl⟩

theorem witness_ParametersAndRolesNeverChange :
    ∃ t, step (sys mcuA mcuB [.agent .m0 .arbiter]) = .next t := ⟨_, rfl⟩

theorem witness_EventsAreOnlyAdded :
    ∃ t, step (sys { mcuA with ph := .report } mcuB [.agent .m0 .arbiter]) = .next t := ⟨_, rfl⟩

/-- In mid-transfer: ROLE_A at counter 3 with its sample due, ROLE_B at counter 5 held by its drive. -/
theorem witness_EveryStepKeepsTheInvariant :
    let s := sys { mcuA with cnt := 3#3, ph := .retrieve, oe := 0x08#8, eph := .settle }
      { mcuB with cnt := 5#3, oe := 0x10#8 } [.agent .m0 .engine]
    ∃ t, SystemInv s ∧ step s = .next t := ⟨_, by decide, rfl⟩

theorem witness_AtMostOneLinePulledLow :
    let s := sys { mcuA with oe := 0x80#8 } { mcuB with oe := 0x02#8 }
    SystemInv s ∧ s.cfg.decided := by decide

/-- Two different observed patterns are waiting. -/
theorem witness_ObservedValuesAreNeverFedBack :
    let s := sys { mcuA with ph := .retrieve, rxq := [0xFE#8] } mcuB [.agent .m0 .arbiter]
    let t := sys { mcuA with ph := .retrieve, rxq := [0x7E#8], obsl := 0x12#8 } mcuB [.agent .m0 .arbiter]
    ∃ s' t', SameControl s t ∧ step s = .next s' ∧ step t = .next t' := ⟨_, _, by decide, rfl, rfl⟩

/-- The trace P4: ROLE_A waits for a sample that does not come, ROLE_B goes on, by single operations and by a RUNCYCLE;
and a full TXQ. -/
theorem witness_StalledArbiterStaysWhereItIs :
    let s := sys { mcuA with cnt := 4#3, ph := .retrieve, oe := 0x10#8, eph := .settle, progress := .givesNoResult }
      { mcuB with cnt := 4#3 }
    ((s.mcu .m0).rst = false ∧ Waiting s.cfg (s.mcu .m0) ∧
      ∀ i ∈ [Instr.submit .m1, .apply .m1, .retrieve .m0, .runCycle .m0, .sample .m1, .runCycle .m1],
        (i.mcu = .m0 → engineStep i = false) ∧
        (i = .runCycle McuId.m0.peer → engineGoes (s.mcu .m0) = false)) ∧
    Waiting cfg { mcuA with txq := [0xAA#8] } := by decide

end Sys2Proof.Tests
end

section
/-! The shape of a step: which turn comes next, and what the code that turn reads decides (R7, R10, R63). -/

namespace Sys2Proof.Machine

variable {s : State} {m : McuId} {c : Code} {i : Instr}

/-- With no turn given from outside, the schedule's value at the counter comes next, and the draw is counted
(log entry 1). -/
theorem nextTurn_nil (h : s.turns = []) :
    nextTurn s = (Config.schedule s.draws, { s with draws := s.draws + 1 }) := by
  simp only [nextTurn, h]

theorem step_of_decode_ok (hf : fetchCode (nextTurn s).1 (nextTurn s).2 = some (m, c)) (hd : decode m c = .ok i) :
    step s = exec i (nextTurn s).2 := by
  simp only [step, hf, hd]

theorem step_of_fetchCode_none (hf : fetchCode (nextTurn s).1 (nextTurn s).2 = none) :
    step s = .next (idleTurn (nextTurn s).1 (nextTurn s).2) := by
  simp only [step, hf]

/-- Settles O52: one rule for each of the two sources of a turn and for each of the two answers of `fetchCode`. -/
theorem stepRunsTheDecodedInstr : Obligations.StepRunsTheDecodedInstr :=
  ⟨fun _ _ _ => nextTurn_cons, fun _ => nextTurn_nil, fun _ _ _ _ => step_of_decode_ok,
    fun _ => step_of_fetchCode_none⟩

end Sys2Proof.Machine
end

section
/-! The invariant of R25: an MCU keeps it under each of its own operations and under every input, so every step of the
system keeps it; and with the decided parameters it leaves at most one line pulled low. -/

namespace Sys2Proof.Machine

variable {cfg : Config} {x y : Mcu} {s t : State} {m : McuId}

/-! ### What an idle turn and a step can do -/

@[simp] theorem idleTurn_cfg (u : Turn) (s : State) : (idleTurn u s).cfg = s.cfg := by
  cases u <;> simp [idleTurn, setCancel, setProgress]

/-- An idle turn leaves an MCU as it is but for its inputs and its engine's progress, or it asserts the reset (R130). -/
theorem idleTurn_mcu (u : Turn) (s : State) (n : McuId) :
    (∃ r c p, (r = true → (s.mcu n).rst = true) ∧
      (idleTurn u s).mcu n = { s.mcu n with rst := r, cancel := c, progress := p }) ∨
    (idleTurn u s).mcu n = resetRow s.cfg { s.mcu n with rst := true } := by
  cases u with
  | slot _ | pads _ | step _ _ | agent _ _ => exact .inl ⟨_, _, _, id, rfl⟩
  | rst m level =>
    rcases McuId.eq_or_peer m n with rfl | rfl
    · cases level with
      | true => exact .inr setRst_true_mcu
      | false => exact .inl ⟨false, _, _, nofun, setRst_false_mcu⟩
    · exact .inl ⟨_, _, _, id, setRst_mcu_peer level⟩
  | cancel m level =>
    rcases McuId.eq_or_peer m n with rfl | rfl
    · exact .inl ⟨_, level, _, id, setMcu_mcu ..⟩
    · exact .inl ⟨_, _, _, id, setMcu_mcu_peer ..⟩
  | progress m p =>
    rcases McuId.eq_or_peer m n with rfl | rfl
    · exact .inl ⟨_, _, p, id, setMcu_mcu ..⟩
    · exact .inl ⟨_, _, _, id, setMcu_mcu_peer ..⟩

/-- What every operation, every idle turn and the model's own bookkeeping keep, every step keeps. -/
theorem step_keep {P : State → Prop} (hrow : ∀ op m s t, P s → RowOf op m s t → P t)
    (hidle : ∀ u s, P s → P (idleTurn u s)) (hbook : ∀ s ts d, P s → P { s with turns := ts, draws := d })
    (hs : P s) (h : step s = .next t) : P t := by
  obtain ⟨ts, d, hn⟩ := nextTurn_snd s
  have hs' : P (nextTurn s).2 := hn ▸ hbook s ts d hs
  rcases step_cases h with ⟨i, hi⟩ | rfl
  · exact exec_keep hrow (fun u hu => hbook u u.turns _ hu) hs' hi
  · exact hidle _ _ hs'

/-! ### The invariant of one MCU -/

theorem resetRow_inReset (cfg : Config) (x : Mcu) : InReset cfg (resetRow cfg x) := ⟨rfl, rfl, rfl, rfl, rfl, rfl⟩

/-- The reset state meets the invariant, whatever the inputs are (R24, R25). -/
theorem mcuInv_of_inReset (h : InReset cfg x) : McuInv cfg x := by
  have hreset := h
  obtain ⟨-, hp, htx, hrx, hoe, he⟩ := hreset
  exact ⟨by simp [inFlight, hp, htx, hrx, he], by simp [htx], .inl hoe, by simp [he], by simp [hp], fun _ => h⟩

theorem inFlight_eq_zero_iff : inFlight x = 0 ↔ x.txq = [] ∧ x.eph = .idle ∧ x.rxq = [] := by
  cases he : x.eph <;> simp [inFlight, he]

/-- Outside PH_RETRIEVE no transfer is in flight: the queues are empty and the engine is idle (R25 (a)). -/
theorem drained_of_mcuInv (h : McuInv cfg x) (hp : x.ph ≠ .retrieve) : x.txq = [] ∧ x.eph = .idle ∧ x.rxq = [] :=
  inFlight_eq_zero_iff.mp (by simpa [hp] using h.1)

theorem ph_of_submitEnabled (h : submitEnabled cfg x = true) : x.ph = .submit := by
  simp only [submitEnabled, Bool.and_eq_true, beq_iff_eq] at h
  exact h.1.1

theorem eph_of_sampleEnabled (h : sampleEnabled cfg x = true) : x.eph = .settle := by
  simp only [sampleEnabled, Bool.and_eq_true, beq_iff_eq] at h
  exact h.1

theorem ph_and_hasCancel_of_cancelEnabled (h : cancelEnabled cfg x = true) :
    x.ph = .submit ∧ cfg.hasCancel = true := by
  simp only [cancelEnabled, cancelled, Bool.and_eq_true, beq_iff_eq] at h
  exact ⟨h.1, h.2.1⟩

/-- No operation of an MCU breaks its invariant (R25). -/
theorem rowStep_keeps_mcuInv {lines : Byte} {op : StepOp} (h : McuInv cfg x) (hstep : RowStep cfg lines op x y) :
    McuInv cfg y := by
  have hinv := h
  obtain ⟨hfly, hown, hoe, hdue, hhalt, -⟩ := hinv
  cases hstep with
  | same => exact h
  | reset => exact mcuInv_of_inReset (resetRow_inReset cfg x)
  | submit _ hr hen =>
    obtain ⟨htx, he, hrx⟩ := drained_of_mcuInv h (by simp [ph_of_submitEnabled hen])
    exact ⟨by simp [inFlight, htx, he, hrx], by simp [htx, Mcu.txword], hoe, by simp [he], by simp, by simp [hr]⟩
  | apply _ w rest hr he hq =>
    have hw : ~~~w = x.intent cfg := by rw [hown w (by simp [hq]), not_txword]
    refine ⟨?_, fun v hv => hown v (by simp [hq, hv]), .inr (.inr ⟨x.cnt, hw⟩), fun _ => hw, hhalt, by simp [hr]⟩
    simpa [inFlight, he, hq] using hfly
  | sample _ hr hen =>
    have he := eph_of_sampleEnabled hen
    refine ⟨?_, hown, ?_, nofun, hhalt, by simp [hr]⟩
    · simpa [inFlight, he, Nat.add_assoc, Nat.add_comm 1] using hfly
    · dsimp only
      split
      · exact hoe
      · exact .inr (.inl rfl)
  | retrieve _ v rest hr hp hq =>
    refine ⟨?_, hown, hoe, hdue, nofun, by simp [hr]⟩
    simp only [inFlight, hp, hq, List.length_cons, if_true] at hfly
    simp only [inFlight, reduceCtorEq, if_false]
    omega
  | report _ hr hp => exact ⟨by simpa [inFlight, hp] using hfly, hown, hoe, hdue, nofun, by simp [hr]⟩
  | advance _ hr hp =>
    obtain ⟨htx, he, hrx⟩ := drained_of_mcuInv h (by simp [hp])
    exact ⟨by simp [inFlight, htx, he, hrx], by simp [htx], hoe, by simp [he], nofun, by simp [hr]⟩
  | cancel _ hr hen =>
    obtain ⟨hp, hc⟩ := ph_and_hasCancel_of_cancelEnabled hen
    exact ⟨by simpa [inFlight, hp] using hfly, hown, hoe, hdue, fun _ => hc, by simp [hr]⟩

/-! ### The invariant of the system -/

theorem systemInv_iff : SystemInv s ↔ s.cfg.wf ∧ ∀ m, McuInv s.cfg (s.mcu m) :=
  and_congr_right fun _ => ⟨fun h m => by cases m; exacts [h.1, h.2], fun h => ⟨h .m0, h .m1⟩⟩

theorem rowOf_keeps_systemInv {op : StepOp} (h : SystemInv s) (hrow : RowOf op m s t) : SystemInv t := by
  obtain ⟨hwf, hinv⟩ := systemInv_iff.mp h
  obtain ⟨hframe, hstep⟩ := hrow
  refine systemInv_iff.mpr ⟨hframe.cfg ▸ hwf, fun n => ?_⟩
  rw [hframe.cfg]
  rcases McuId.eq_or_peer m n with rfl | rfl
  · exact rowStep_keeps_mcuInv (hinv n) hstep
  · exact hframe.peer ▸ hinv m.peer

theorem idleTurn_keeps_systemInv (u : Turn) (h : SystemInv s) : SystemInv (idleTurn u s) := by
  obtain ⟨hwf, hinv⟩ := systemInv_iff.mp h
  refine systemInv_iff.mpr ⟨(idleTurn_cfg u s).symm ▸ hwf, fun n => ?_⟩
  rw [idleTurn_cfg]
  rcases idleTurn_mcu u s n with ⟨r, c, p, hr, e⟩ | e
  · obtain ⟨hfly, hown, hoe, hdue, hhalt, hrst⟩ := hinv n
    rw [e]
    exact ⟨hfly, hown, hoe, hdue, hhalt, fun h => hrst (hr h)⟩
  · rw [e]
    exact mcuInv_of_inReset (resetRow_inReset _ _)

/-- Settles O57: `McuInv` holds of the reset state and each operation of an MCU keeps it, so every step does. -/
theorem everyStepKeepsTheInvariant : Obligations.EveryStepKeepsTheInvariant := fun _ _ =>
  step_keep (fun _ _ _ _ => rowOf_keeps_systemInv) (fun u _ => idleTurn_keeps_systemInv u) (fun _ _ _ => id)

/-- Settles O56: both MCUs start in the reset state, and the default parameters are within their bounds. -/
theorem resetMeetsTheInvariant : Obligations.ResetMeetsTheInvariant :=
  ⟨by simp [Config.wf, State.reset, Config.default],
    mcuInv_of_inReset ⟨rfl, rfl, rfl, rfl, rfl, rfl⟩, mcuInv_of_inReset ⟨rfl, rfl, rfl, rfl, rfl, rfl⟩⟩

/-- With INTENT_OOR = 0x00 an INTENT has at most one bit set: it is one-hot up to index 7 and 0x00 above (R54, R57). -/
theorem encodeIndex_at_most_one_bit (h : cfg.intentOor = 0x00#8) (i : Idx) :
    encodeIndex cfg i &&& (encodeIndex cfg i - 1#8) = 0x00#8 := by
  unfold encodeIndex
  rw [h]
  revert i
  decide

/-- Settles O58: the pads show 0x00 or an INTENT, and an INTENT has at most one bit set. -/
theorem atMostOneLinePulledLow : Obligations.AtMostOneLinePulledLow := by
  intro s m h ⟨hoor, _, hreset⟩
  obtain ⟨-, -, hoe, -⟩ := (systemInv_iff.mp h).2 m
  rcases hoe with e | e | ⟨c, e⟩
  · simp [e, hreset]
  · simp [e]
  · rw [e]
    exact encodeIndex_at_most_one_bit hoor _

/-- Settles O54: neither an operation nor an idle turn writes the parameters or a ROLE. -/
theorem parametersAndRolesNeverChange : Obligations.ParametersAndRolesNeverChange := by
  intro s t
  refine step_keep (P := fun u => u.cfg = s.cfg ∧ ∀ m, (u.mcu m).role = (s.mcu m).role) ?_ ?_ ?_ ⟨rfl, fun _ => rfl⟩
  · rintro _ m u v ⟨hc, hr⟩ ⟨hframe, -⟩
    refine ⟨hframe.cfg.trans hc, fun n => ?_⟩
    rcases McuId.eq_or_peer m n with rfl | rfl
    · exact hframe.role.trans (hr n)
    · rw [hframe.peer, hr]
  · rintro w u ⟨hc, hr⟩
    refine ⟨(idleTurn_cfg w u).trans hc, fun n => ?_⟩
    rcases idleTurn_mcu w u n with ⟨_, _, _, _, e⟩ | e
    · rw [e, ← hr n]
    · rw [e, ← hr n]; rfl
  · rintro u ts d ⟨hc, hr⟩
    exact ⟨hc, fun n => by simpa using hr n⟩

end Sys2Proof.Machine
end

section
/-! Who writes a register: CNT, OBSL and OE each have one operation that writes them (R12, R16, R19). -/

namespace Sys2Proof.Machine

theorem opOf_eq_advance {i : Instr} (h : opOf i = .advance) : i = .advance i.mcu := by
  cases i with
  | advance => rfl
  | _ => cases h

theorem opOf_eq_retrieve {i : Instr} (h : opOf i = .retrieve) : i = .retrieve i.mcu := by
  cases i with
  | retrieve => rfl
  | _ => cases h

variable {cfg : Config} {lines : Byte} {op : StepOp} {x y : Mcu}

/-- CNT is written by ADVANCE and by reset alone (R12, R102). -/
theorem rowStep_cnt (h : RowStep cfg lines op x y) :
    y.cnt = x.cnt ∨ (op = .advance ∧ y.cnt = x.cnt + 1#3) ∨ (x.rst = true ∧ y.cnt = 0#3) := by
  cases h with
  | reset _ _ hr => exact .inr (.inr ⟨hr, rfl⟩)
  | advance => exact .inr (.inl ⟨rfl, rfl⟩)
  | same | submit | apply | sample | retrieve | report | cancel => exact .inl rfl

/-- Out of reset OBSL is written by RETRIEVE alone, from the head of RXQ (R16, R91). -/
theorem rowStep_obsl (h : RowStep cfg lines op x y) (hr : x.rst = false) :
    y.obsl = x.obsl ∨ (op = .retrieve ∧ x.rxq = y.obsl :: y.rxq) := by
  cases h with
  | reset _ _ hr' => simp [hr'] at hr
  | retrieve _ _ _ _ _ hq => exact .inr ⟨rfl, hq⟩
  | same | submit | apply | sample | report | advance | cancel => exact .inl rfl

/-- Out of reset and with DRIVE_HOLD, OE is written by APPLY alone, from the head of TXQ (R19, R139). -/
theorem rowStep_oe (h : RowStep cfg lines op x y) (hr : x.rst = false) (hd : cfg.driveHold = true) :
    y.oe = x.oe ∨ (x.eph = .idle ∧ y.eph = .settle ∧ x.txq = ~~~y.oe :: y.txq) := by
  cases h with
  | reset _ _ hr' => simp [hr'] at hr
  | apply _ w rest _ he hq => exact .inr ⟨he, rfl, by simpa using hq⟩
  | sample => exact .inl (by simp [hd])
  | same | submit | retrieve | report | advance | cancel => exact .inl rfl

/-- Settles O42: of the operations of an MCU only ADVANCE writes CNT, and the steps of a RUNCYCLE hold no ADVANCE. -/
theorem counterIsWrittenByAdvanceAlone : Obligations.CounterIsWrittenByAdvanceAlone := by
  intro s t i m hi h
  rcases exec_mcu hi h with e | ⟨hr, e⟩ | ⟨rfl, hstep⟩ | ⟨-, hr, hs, e⟩
  · exact .inl (by rw [e])
  · exact .inr (.inr ⟨hr, by rw [e]; rfl⟩)
  · exact (rowStep_cnt hstep).imp_right (.imp_left fun ⟨hop, hc⟩ => ⟨opOf_eq_advance hop, hc⟩)
  · exact .inl (by rw [e, (cycleSteps_mcu hr hs).cnt])

/-- Settles O43: of the operations of an MCU only RETRIEVE writes OBSL, and a RUNCYCLE either waits for it in
PH_RETRIEVE or ends in PH_ADVANCE. -/
theorem latchIsWrittenByRetrieveAlone : Obligations.LatchIsWrittenByRetrieveAlone := by
  intro s t i m hi h hup
  rcases exec_mcu hi h with e | ⟨hr, -⟩ | ⟨rfl, hstep⟩ | ⟨hrun, hr, hs, e⟩
  · exact .inl (by rw [e])
  · simp [hr] at hup
  · exact (rowStep_obsl hstep hup).imp_right fun ⟨hop, hq⟩ => .inl ⟨opOf_eq_retrieve hop, hq⟩
  · rw [e]
    rcases (cycleSteps_mcu hr hs).ph with ⟨-, ho, -⟩ | hadv
    · exact .inl ho
    · exact .inr (.inr ⟨hrun, ph_of_submitEnabled hs, hadv⟩)

/-- Settles O44: of the operations of an MCU only APPLY writes OE, and a RUNCYCLE holds one APPLY, of the oldest word. -/
theorem driveIsHeldUntilTheNextApply : Obligations.DriveIsHeldUntilTheNextApply := by
  intro s t i m hi h hd hup
  rcases exec_mcu hi h with e | ⟨hr, -⟩ | ⟨rfl, hstep⟩ | ⟨hrun, hr, hs, e⟩
  · exact .inl (by rw [e])
  · simp [hr] at hup
  · exact (rowStep_oe hstep hup hd).imp_right fun happ => .inl ⟨rfl, happ⟩
  · rw [e]
    exact ((cycleSteps_mcu hr hs).oe hd).imp_right fun hrest => .inr ⟨hrun, hrest⟩

end Sys2Proof.Machine
end

section
/-! Reset and the inputs: the values reset leaves, what each input turn changes, and the first operation after reset
(R24, R103, R130). -/

namespace Sys2Proof.Machine

/-- Settles O47: the registers of both MCUs as `Mcu.reset` gives them, and `resetMcu` as `resetRow` says. -/
theorem resetLeavesTheStatedValues : Obligations.ResetLeavesTheStatedValues := by
  refine ⟨fun m => by cases m <;> exact ⟨rfl, rfl, rfl, rfl, rfl, rfl⟩, rfl, rfl, rfl, fun s m => ?_⟩
  have hframe := resetMcu_frame m s
  exact ⟨resetMcu_mcu m s ▸ resetRow_inReset s.cfg (s.mcu m), hframe.role, hframe.peer⟩

/-- Settles O48: an asserted reset input resets its MCU alone, a released one changes that input alone. -/
theorem resetInputResetsOneMcu : Obligations.ResetInputResetsOneMcu := by
  intro s m rest
  constructor
  · intro h
    refine ⟨_, step_rst h, setRst_true_mcu ▸ resetRow_inReset _ _, ?_⟩
    simp [resetRow]
  · intro h
    rw [step_rst h]
    cases m <;> rfl

/-- Settles O51: the cancel input and the engine's progress are each one field of their MCU. -/
theorem cancelInputChangesNothingElse : Obligations.CancelInputChangesNothingElse := by
  intro s m rest
  constructor
  · intro level h
    rw [step_cancel h]
    cases m <;> rfl
  · intro p h
    rw [step_progress h]
    cases m <;> rfl

theorem txw_roleA_zero (cfg : Config) : txw cfg .roleA 0#3 = 0xFE#8 := by
  simp [txw, intentOf, indexOf, indexA, encodeIndex, invert]

theorem txw_roleB_zero (cfg : Config) : txw cfg .roleB 0#3 = invert cfg.intentOor := by
  simp [txw, intentOf, indexOf, indexB, encodeIndex]

/-- Out of reset, in PH_SUBMIT with nothing submitted and no cancellation, the arbiter's turn submits the iteration's
word (R90, R104). -/
theorem arbiterTurn_submits {s : State} {m : McuId} (hr : (s.mcu m).rst = false) (hp : (s.mcu m).ph = .submit)
    (hq : (s.mcu m).txq = []) (hd : 1 ≤ s.cfg.txqDepth) (hc : s.cfg.hasCancel = false) :
    (agentTurn m s .arbiter).mcu m = { s.mcu m with txq := [(s.mcu m).txword s.cfg], ph := .retrieve } := by
  have hno : cancelled s.cfg (s.mcu m) = false := by simp [cancelled, hc]
  have hen : submitEnabled s.cfg (s.mcu m) = true := by simp [submitEnabled, hp, hq, hno]; omega
  simp [agentTurn, hp, hno, submit_enabled hr hen, hq]

/-- Settles O50: reset empties the queues and sets PH_SUBMIT and CNT = 0, so the arbiter's turn submits TXW(ROLE, 0). -/
theorem firstWordAfterReset : Obligations.FirstWordAfterReset := by
  intro s m rest h hd hc ho
  refine ⟨_, _, _, step_rst h, step_rst (setRst_turns true), step_agent (setRst_turns false), ?_⟩
  rw [arbiterTurn_submits (by simp) (by simp [resetRow]) (by simp [resetRow]) (by simpa using hd) (by simpa using hc)]
  refine ⟨rfl, ?_⟩
  cases hrole : (s.mcu m).role with
  | roleA => simp [resetRow, Mcu.txword, hrole, txw_roleA_zero]
  | roleB => simp [resetRow, Mcu.txword, hrole, txw_roleB_zero, ho, invert]

end Sys2Proof.Machine
end

section
/-! The bus and its pins: what a line reads, which pins the lines are, and what a SAMPLE latches while the peer applies or
samples too (R34 to R41, R112, R136). -/

namespace Sys2Proof.Machine

variable {s t : State} {m : McuId} {i : Instr}

/-! ### Lines and pins -/

/-- A line is low exactly where an MCU or its peer pulls it (R36). -/
theorem line_low_iff (s : State) (m : McuId) {i : Nat} (hi : i < 8) :
    (line s).getLsbD i = false ↔ (s.mcu m).oe.getLsbD i = true ∨ (s.mcu m.peer).oe.getLsbD i = true := by
  rw [line_eq m]
  simp only [Mcu.shown, BitVec.getLsbD_and, BitVec.getLsbD_not, hi, decide_true, Bool.true_and,
    Bool.and_eq_false_iff, Bool.not_eq_false']

/-- Settles O17: the two words shown are ANDed bit by bit. -/
theorem lineIsLowWhereAnyMcuPulls : Obligations.LineIsLowWhereAnyMcuPulls :=
  fun s _ hi => line_low_iff s .m0 hi

theorem contended_iff (s : State) (m : McuId) (i : Nat) :
    contended s i = true ↔ (s.mcu m).oe.getLsbD i = true ∧ (s.mcu m.peer).oe.getLsbD i = true := by
  cases m <;> simp [contended, McuId.peer, and_comm]

/-- Settles O18: the peer's pull alone holds the line low. -/
theorem contentionIsInvisible : Obligations.ContentionIsInvisible := by
  intro s m i h
  obtain ⟨hown, hpeer⟩ := (contended_iff s m i).mp h
  have hi : i < 8 := BitVec.lt_of_getLsbD hown
  have hlow : (line s).getLsbD i = false := (line_low_iff s m hi).mpr (.inl hown)
  have hreleased := (line_low_iff (s.setMcu m { s.mcu m with oe := 0x00#8 }) m hi).mpr (.inr (by simpa using hpeer))
  exact ⟨hlow, hreleased.trans hlow.symm⟩

theorem two_le_pinBase {cfg : Config} (h : cfg.wf) (m : McuId) : 2 ≤ cfg.pinBase m := by
  obtain ⟨h0, h1, -⟩ := h
  cases m <;> assumption

/-- Settles O19: the lines count up from PIN_BASE, the reserved pins are the two below it. -/
theorem linesAvoidTheReservedPins : Obligations.LinesAvoidTheReservedPins := by
  intro cfg m i j hwf
  have hbase := two_le_pinBase hwf m
  refine ⟨rfl, fun h => Fin.ext (Nat.add_left_cancel h), ?_, rfl, ?_⟩
  · simp only [gpioOfLine, reservedPins, List.mem_cons, List.not_mem_nil, or_false]
    omega
  · simp only [reservedPins, List.nodup_cons, List.mem_singleton, List.not_mem_nil, not_false_eq_true,
      List.nodup_nil, and_true]
    omega

/-! ### Runs of operations -/

@[simp] theorem execAll_nil (s : State) : execAll [] s = .next s := rfl

theorem execAll_cons (l : List Instr) (h : exec i s = .next t) : execAll (i :: l) s = execAll l t := by
  simp only [execAll, h]

theorem execAll_append {l k : List Instr} (h : execAll l s = .next t) : execAll (l ++ k) s = execAll k t := by
  induction l generalizing s with
  | nil => cases h; rfl
  | cons i l ih =>
    simp only [execAll] at h
    split at h
    · next u hu => rw [List.cons_append, execAll_cons _ hu, ih h]
    all_goals cases h

/-! ### A sample and the peer's drive -/

theorem sampleEnabled_iff {cfg : Config} {x : Mcu} :
    sampleEnabled cfg x = true ↔ x.eph = .settle ∧ x.rxq.length < cfg.rxqDepth := by
  simp only [sampleEnabled, Bool.and_eq_true, beq_iff_eq, decide_eq_true_eq]

/-- Where SAMPLE is enabled, what the lines read goes behind RXQ (R93). -/
theorem sample_rxq (hr : (s.mcu m).rst = false) (h : sampleEnabled s.cfg (s.mcu m) = true) :
    ((sample m s).mcu m).rxq = (s.mcu m).rxq ++ [line s] := by
  rw [sample_enabled hr h, emit_mcu, setMcu_mcu]

/-- With DRIVE_HOLD a SAMPLE leaves the lines as they are (R139). -/
theorem line_sample (hr : (s.mcu m).rst = false) (hd : s.cfg.driveHold = true) : line (sample m s) = line s := by
  have hoe : ((sample m s).mcu m).oe = (s.mcu m).oe := by
    have h := (sample_row m s).2
    generalize (sample m s).mcu m = y at h ⊢
    cases h with
    | same => rfl
    | reset _ _ hr' => rw [hr] at hr'; cases hr'
    | sample => simp [hd]
  simp only [line_eq m, (sample_row m s).1.peer, Mcu.shown, hoe]

/-- Settles O28: the peer shows 0xFF, so the lines read the own word. -/
theorem isolatedSampleIsTheOwnWord : Obligations.IsolatedSampleIsTheOwnWord := by
  intro s m hr he hroom hoe hpeer
  have hline : line s = (s.mcu m).txword s.cfg := by
    rw [line_eq m, Mcu.shown, Mcu.shown, hoe, hpeer, not_intent]
    exact BitVec.and_allOnes
  exact ⟨sample m s, rfl, by rw [sample_rxq hr (sampleEnabled_iff.mpr ⟨he, hroom⟩), hline]⟩

/-- Settles O30: the lines are read before or after the peer's pads take `NOT w`. -/
theorem sampleSeesPeerBeforeOrAfter : Obligations.SampleSeesPeerBeforeOrAfter := by
  intro s m w q hr he hroom hrp hep hqp
  have hen := sampleEnabled_iff.mpr ⟨he, hroom⟩
  constructor
  · have hown : (apply m.peer (sample m s)).mcu m = (sample m s).mcu m := by
      simpa using (apply_row m.peer (sample m s)).1.peer
    exact ⟨apply m.peer (sample m s), rfl, by rw [hown, sample_rxq hr hen, line_eq m]; rfl⟩
  · have happ := apply_enabled hrp hep hqp
    have hown : (apply m.peer s).mcu m = s.mcu m := by simpa using (apply_row m.peer s).1.peer
    have hline : line (apply m.peer s) = ~~~(s.mcu m).oe &&& w := by
      rw [line_eq m, hown, happ, emit_mcu, setMcu_mcu, Mcu.shown, Mcu.shown, BitVec.not_not]
    refine ⟨sample m (apply m.peer s), rfl, ?_⟩
    rw [sample_rxq (by rwa [hown]) (by rwa [hown, (apply_row m.peer s).1.cfg]), hown, hline]

/-! ### Both MCUs in the same tick -/

/-- An MCU out of reset with an idle engine, the word `w` at the head of TXQ and room in RXQ. -/
structure ToApply (cfg : Config) (w : Byte) (x : Mcu) : Prop where
  rst : x.rst = false
  eph : x.eph = .idle
  head : ∃ q, x.txq = w :: q
  room : x.rxq.length < cfg.rxqDepth

/-- An MCU out of reset that drives the word `w` and has its sample due, with these results in RXQ and room for one more. -/
structure ToSample (cfg : Config) (w : Byte) (rxq : List Byte) (x : Mcu) : Prop where
  rst : x.rst = false
  enabled : sampleEnabled cfg x = true
  shown : x.shown = w
  results : x.rxq = rxq

theorem toSample_apply {w : Byte} (h : ToApply s.cfg w (s.mcu m)) :
    ToSample s.cfg w (s.mcu m).rxq ((apply m s).mcu m) := by
  obtain ⟨hr, he, ⟨q, hq⟩, hroom⟩ := h
  rw [apply_enabled hr he hq, emit_mcu, setMcu_mcu]
  exact ⟨hr, sampleEnabled_iff.mpr ⟨rfl, hroom⟩, BitVec.not_not, rfl⟩

/-- An APPLY of each MCU leaves both with their sample due. -/
theorem apply_both {d e : Byte} (hm : ToApply s.cfg d (s.mcu m)) (hp : ToApply s.cfg e (s.mcu m.peer)) :
    ∃ t, execAll [.apply m, .apply m.peer] s = .next t ∧ t.cfg = s.cfg ∧
      ToSample s.cfg d (s.mcu m).rxq (t.mcu m) ∧ ToSample s.cfg e (s.mcu m.peer).rxq (t.mcu m.peer) := by
  obtain ⟨hframe, -⟩ := apply_row m s
  obtain ⟨hframe', -⟩ := apply_row m.peer (apply m s)
  refine ⟨apply m.peer (apply m s), rfl, hframe'.cfg.trans hframe.cfg, ?_, ?_⟩
  · have hown : (apply m.peer (apply m s)).mcu m = (apply m s).mcu m := by simpa using hframe'.peer
    exact hown ▸ toSample_apply hm
  · have h := toSample_apply (s := apply m s) (m := m.peer) (w := e) (by rwa [hframe.cfg, hframe.peer])
    rwa [hframe.cfg, hframe.peer] at h

/-- With DRIVE_HOLD, a SAMPLE of each MCU latches the AND of both words in both. -/
theorem sample_both {d e : Byte} {qm qp : List Byte} (hd : s.cfg.driveHold = true)
    (hm : ToSample s.cfg d qm (s.mcu m)) (hp : ToSample s.cfg e qp (s.mcu m.peer)) :
    ∃ t, execAll [.sample m, .sample m.peer] s = .next t ∧
      (t.mcu m).rxq = qm ++ [d &&& e] ∧ (t.mcu m.peer).rxq = qp ++ [d &&& e] := by
  obtain ⟨hframe, -⟩ := sample_row m s
  have hown : (sample m.peer (sample m s)).mcu m = (sample m s).mcu m := by
    simpa using (sample_row m.peer (sample m s)).1.peer
  have hline : line s = d &&& e := by rw [line_eq m, hm.shown, hp.shown]
  refine ⟨sample m.peer (sample m s), rfl, ?_, ?_⟩
  · rw [hown, sample_rxq hm.rst hm.enabled, hm.results, hline]
  · rw [sample_rxq (by rw [hframe.peer]; exact hp.rst) (by rw [hframe.cfg, hframe.peer]; exact hp.enabled),
      hframe.peer, line_sample hm.rst hd, hp.results, hline]

/-- Settles O29: both orders of the applies leave both samples due, and both orders of the samples read the same lines. -/
theorem sameTickSamplesCompose : Obligations.SameTickSamplesCompose := by
  intro s m d e qd qe hd hr he hq hroom hrp hep hqp hroomp applies ha samples hs
  have hm : ToApply s.cfg d (s.mcu m) := ⟨hr, he, ⟨qd, hq⟩, hroom⟩
  have hp : ToApply s.cfg e (s.mcu m.peer) := ⟨hrp, hep, ⟨qe, hqp⟩, hroomp⟩
  have happlied : ∃ t, execAll applies s = .next t ∧ t.cfg = s.cfg ∧
      ToSample s.cfg d (s.mcu m).rxq (t.mcu m) ∧ ToSample s.cfg e (s.mcu m.peer).rxq (t.mcu m.peer) := by
    simp only [List.mem_cons, List.not_mem_nil, or_false] at ha
    rcases ha with rfl | rfl
    · exact apply_both hm hp
    · obtain ⟨t, ht, hc, hp', hm'⟩ := apply_both (m := m.peer) (e := d) hp (by simpa using hm)
      exact ⟨t, by simpa using ht, hc, by simpa using hm', hp'⟩
  obtain ⟨u, hu, hc, hm', hp'⟩ := happlied
  rw [← hc] at hd hm' hp'
  rw [execAll_append hu]
  simp only [List.mem_cons, List.not_mem_nil, or_false] at hs
  rcases hs with rfl | rfl
  · exact sample_both hd hm' hp'
  · obtain ⟨t, ht, htp, htm⟩ := sample_both (m := m.peer) (e := d) hd hp' (by simpa using hm')
    rw [BitVec.and_comm e d] at htp htm
    exact ⟨t, by simpa using ht, by simpa using htm, htp⟩

end Sys2Proof.Machine
end

section
/-! The two MCUs share nothing but the lines: what an operation does to its own MCU depends on the registers of that MCU
alone, and its peer changes by operations of its own (R30, R39, R106, R121). -/

namespace Sys2Proof.Machine

variable {s t s' t' : State} {m : McuId} {x y : Mcu}

/-! ### The peer -/

/-- A turn of an agent is one of the seven operations of its MCU's agents, or the halted arbiter waits (R104). -/
theorem agentTurn_exec (m : McuId) (s : State) (a : Agent) :
    agentTurn m s a = s ∨
    ∃ i ∈ [Instr.submit m, .retrieve m, .report m, .advance m, .cancel m, .apply m, .sample m],
      exec i s = .next (agentTurn m s a) := by
  unfold agentTurn
  split
  · split
    · exact .inr ⟨.cancel m, by simp, rfl⟩
    · exact .inr ⟨.submit m, by simp, rfl⟩
  · exact .inr ⟨.retrieve m, by simp, rfl⟩
  · exact .inr ⟨.report m, by simp, rfl⟩
  · exact .inr ⟨.advance m, by simp, rfl⟩
  · exact .inl rfl
  · exact .inr ⟨.apply m, by simp, rfl⟩
  · exact .inr ⟨.sample m, by simp, rfl⟩

/-- In a gap of a RUNCYCLE an agent takes its turn or its engine has stopped. -/
theorem gapTurn_eq (m : McuId) (s : State) (a : Agent) : gapTurn m s a = agentTurn m s a ∨ gapTurn m s a = s := by
  cases a with
  | arbiter => exact .inl rfl
  | engine =>
    cases h : engineGoes (s.mcu m) with
    | true => exact .inl (whileGoing_goes h fun u => agentTurn m u .engine)
    | false => exact .inr (whileGoing_stopped h fun u => agentTurn m u .engine)

/-- Settles O45: the frame of a single operation, and for a RUNCYCLE the turns of the peer's agents in its gaps. -/
theorem peerRegistersAreUntouched : Obligations.PeerRegistersAreUntouched := by
  constructor
  · intro s t i hi h
    exact (exec_row hi h).1.peer
  · intro s t m kept h hkeep hs
    cases h
    refine (runCycle_keep_peer (fun u a hc hu => ?_) hs).1
    rcases gapTurn_eq m.peer u a with e | e
    · rcases agentTurn_exec m.peer u a with e' | ⟨i, hi, hexec⟩
      · rwa [e, e']
      · exact e ▸ hkeep u _ hc hu i hi hexec
    · rwa [e]

/-! ### The own MCU -/

/-- Two states with the same parameters whose MCU `m` differs at most in what was observed. -/
structure Agree (m : McuId) (s t : State) : Prop where
  cfg : s.cfg = t.cfg
  own : SameMcuControl (s.mcu m) (t.mcu m)

/-- MCUs that differ at most in what was observed, as one record update. -/
theorem sameMcuControl_iff :
    SameMcuControl x y ↔ ∃ v q, q.length = x.rxq.length ∧ y = { x with obsl := v, rxq := q } := by
  constructor
  · rintro ⟨hrole, hcnt, hph, htxq, hoe, heph, hrst, hcancel, hprogress, hlen⟩
    refine ⟨y.obsl, y.rxq, hlen.symm, ?_⟩
    rw [hrole, hcnt, hph, htxq, hoe, heph, hrst, hcancel, hprogress]
  · rintro ⟨v, q, hlen, rfl⟩
    exact ⟨rfl, rfl, rfl, rfl, rfl, rfl, rfl, rfl, rfl, hlen.symm⟩

theorem sameMcuControl_refl (x : Mcu) : SameMcuControl x x := ⟨rfl, rfl, rfl, rfl, rfl, rfl, rfl, rfl, rfl, rfl⟩

/-- The parameters of the second state are those of the first, its MCU is a record update of the first one's. -/
theorem Agree.eqs (h : Agree m s t) :
    t.cfg = s.cfg ∧ ∃ v q, q.length = (s.mcu m).rxq.length ∧ t.mcu m = { s.mcu m with obsl := v, rxq := q } :=
  ⟨h.cfg.symm, sameMcuControl_iff.mp h.own⟩

theorem Agree.setMcu (h : Agree m s t) (hxy : SameMcuControl x y) : Agree m (s.setMcu m x) (t.setMcu m y) :=
  ⟨by simpa using h.cfg, by simpa only [setMcu_mcu] using hxy⟩

theorem Agree.emit (h : Agree m s t) (e f : Event) : Agree m (emit e s) (emit f t) :=
  ⟨h.cfg, by simpa only [emit_mcu] using h.own⟩

theorem Agree.emitIf (h : Agree m s t) (p q : Prop) [Decidable p] [Decidable q] (e f : Event) :
    Agree m (if p then Machine.emit e s else s) (if q then Machine.emit f t else t) := by
  refine ⟨?_, ?_⟩
  · split <;> split <;> exact h.cfg
  · split <;> split <;> simpa only [emit_mcu] using h.own

theorem resetMcu_agree (h : Agree m s t) : Agree m (resetMcu m s) (resetMcu m t) := by
  obtain ⟨hc, v, q, -, hy⟩ := h.eqs
  refine h.setMcu ?_
  rw [hc, hy]
  exact sameMcuControl_refl _

theorem whenUp_agree {f g : Mcu → State} (h : Agree m s t) (hup : Agree m (f (s.mcu m)) (g (t.mcu m))) :
    Agree m (whenUp m s f) (whenUp m t g) := by
  have hrst : (t.mcu m).rst = (s.mcu m).rst := by
    obtain ⟨-, v, q, -, hy⟩ := h.eqs
    rw [hy]
  cases hr : (s.mcu m).rst with
  | true => rw [whenUp_reset hr, whenUp_reset (hrst.trans hr)]; exact resetMcu_agree h
  | false => rw [whenUp_up hr, whenUp_up (hrst.trans hr)]; exact hup

/-- A choice on a condition that both states decide alike keeps the agreement. -/
theorem agree_ite {a b : State} {p q : Bool} (h : Agree m s t) (hpq : q = p) (hp : Agree m a b) :
    Agree m (if p then a else s) (if q then b else t) := by
  subst hpq
  split
  · exact hp
  · exact h

theorem submit_agree (h : Agree m s t) : Agree m (submit m s) (submit m t) := by
  obtain ⟨hc, v, q, hlen, hy⟩ := h.eqs
  have hen : submitEnabled t.cfg (t.mcu m) = submitEnabled s.cfg (s.mcu m) := by rw [hc, hy]; rfl
  exact whenUp_agree h (agree_ite h hen (h.setMcu (sameMcuControl_iff.mpr ⟨v, q, hlen, by rw [hc, hy]; rfl⟩)))

theorem apply_agree (h : Agree m s t) : Agree m (apply m s) (apply m t) := by
  obtain ⟨-, v, q, hlen, hy⟩ := h.eqs
  refine whenUp_agree h ?_
  simp only [hy]
  split
  · refine (h.setMcu ?_).emit _ _
    exact sameMcuControl_iff.mpr ⟨v, q, hlen, rfl⟩
  all_goals exact h

theorem drive_agree (w : Byte) (h : Agree m s t) : Agree m (drive w m s) (drive w m t) := by
  obtain ⟨-, v, q, -, hy⟩ := h.eqs
  refine whenUp_agree h ?_
  simp only [hy]
  split
  · exact apply_agree h
  · exact h

theorem sample_agree (h : Agree m s t) : Agree m (sample m s) (sample m t) := by
  obtain ⟨hc, v, q, hlen, hy⟩ := h.eqs
  have hen : sampleEnabled t.cfg (t.mcu m) = sampleEnabled s.cfg (s.mcu m) := by
    rw [hc, hy]; simp only [sampleEnabled, hlen]
  refine whenUp_agree h (agree_ite h hen ((h.setMcu ?_).emit _ _))
  exact sameMcuControl_iff.mpr ⟨v, q ++ [line t], by simp [hlen], by rw [hc, hy]⟩

/-- RETRIEVE looks at the length of RXQ alone to see whether it can be taken (R91). -/
theorem retrieve_agree (h : Agree m s t) : Agree m (retrieve m s) (retrieve m t) := by
  obtain ⟨-, v, q, hlen, hy⟩ := h.eqs
  refine whenUp_agree h ?_
  simp only [hy]
  cases hp : (s.mcu m).ph with
  | retrieve =>
    cases hq : (s.mcu m).rxq with
    | nil =>
      obtain rfl := List.eq_nil_of_length_eq_zero (by simpa [hq] using hlen)
      exact h
    | cons a rest =>
      obtain ⟨b, rest', rfl⟩ := List.exists_cons_of_length_eq_add_one (by simpa [hq] using hlen)
      exact h.setMcu (sameMcuControl_iff.mpr ⟨b, rest', by simpa [hq] using hlen, rfl⟩)
  | submit | report | advance | halt => exact h

theorem report_agree (h : Agree m s t) : Agree m (report m s) (report m t) := by
  obtain ⟨-, v, q, hlen, hy⟩ := h.eqs
  refine whenUp_agree h (agree_ite h (by rw [hy]; rfl) ((h.setMcu ?_).emit _ _))
  exact sameMcuControl_iff.mpr ⟨v, q, hlen, by rw [hy]⟩

theorem advance_agree (h : Agree m s t) : Agree m (advance m s) (advance m t) := by
  obtain ⟨-, v, q, hlen, hy⟩ := h.eqs
  refine whenUp_agree h (agree_ite h (by rw [hy]; rfl) (h.setMcu ?_))
  exact sameMcuControl_iff.mpr ⟨v, q, hlen, by rw [hy]⟩

theorem cancel_agree (h : Agree m s t) : Agree m (cancel m s) (cancel m t) := by
  obtain ⟨hc, v, q, hlen, hy⟩ := h.eqs
  refine whenUp_agree h (agree_ite h (by rw [hc, hy]; rfl) (h.setMcu ?_))
  exact sameMcuControl_iff.mpr ⟨v, q, hlen, by rw [hy]⟩

theorem whileGoing_agree {f : State → State} (h : Agree m s t) (hf : Agree m (f s) (f t)) :
    Agree m (whileGoing m f s) (whileGoing m f t) := by
  obtain ⟨-, v, q, -, hy⟩ := h.eqs
  exact agree_ite h (by rw [hy]; rfl) hf

/-- Whatever the peer does in a gap of a RUNCYCLE, the own registers stay. -/
theorem peerGap_agree (h : Agree m s t) : Agree m (peerGap m s) (peerGap m t) :=
  ⟨by simpa using h.cfg, by simpa only [peerGap_mcu] using h.own⟩

theorem cycleSteps_agree (h : Agree m s t) : Agree m (cycleSteps m s) (cycleSteps m t) := by
  have hsubmit := peerGap_agree (submit_agree h)
  have happly := peerGap_agree (whileGoing_agree hsubmit (apply_agree hsubmit))
  have hsample := peerGap_agree (whileGoing_agree happly (sample_agree happly))
  exact report_agree (peerGap_agree (retrieve_agree hsample))

theorem runCycle_agree (h : Agree m s t) : Agree m (runCycle m s) (runCycle m t) := by
  obtain ⟨hc, v, q, -, hy⟩ := h.eqs
  exact whenUp_agree h (agree_ite h (by rw [hc, hy]; rfl) ((cycleSteps_agree h).emitIf _ _ _ _))

/-- An operation keeps its own MCU's registers apart from those of the peer: it takes agreeing states to agreeing ones. -/
theorem exec_agree {i : Instr} (h : Agree i.mcu s t) (hs : exec i s = .next s') (ht : exec i t = .next t') :
    Agree i.mcu s' t' := by
  cases i with
  | selA0 | selA1 | selA2 | selA3 | selA4 | selA5 | selA6 | selA7
  | selB0 | selB1 | selB2 | selB3 | selB4 | selB5 | selB6 | selB7
  | selA | selB => cases hs; cases ht; exact h.emitIf _ _ _ _
  | enc | inv => cases hs; cases ht; exact h.emit _ _
  | drvL0 | drvL1 | drvL2 | drvL3 | drvL4 | drvL5 | drvL6 | drvL7 | drvNone | drvAny =>
    cases hs; cases ht; exact drive_agree _ h
  | submit => cases hs; cases ht; exact submit_agree h
  | retrieve => cases hs; cases ht; exact retrieve_agree h
  | apply => cases hs; cases ht; exact apply_agree h
  | sample => cases hs; cases ht; exact sample_agree h
  | delayA => cases hs; cases ht; exact h
  | report => cases hs; cases ht; exact report_agree h
  | advance => cases hs; cases ht; exact advance_agree h
  | cancel => cases hs; cases ht; exact cancel_agree h
  | runCycle => cases hs; cases ht; exact runCycle_agree h

/-- Settles O46: equal registers agree, and each operation keeps the agreement. -/
theorem ownControlDependsOnOwnRegisters : Obligations.OwnControlDependsOnOwnRegisters :=
  fun _ _ _ _ _ hc hown hs ht => (exec_agree ⟨hc, hown ▸ sameMcuControl_refl _⟩ hs ht).own

end Sys2Proof.Machine
end

section
/-! One iteration from PH_SUBMIT with nothing in flight: the registers after each of its operations, whatever the peer does
between them, and the two runs of it, operation by operation and as a RUNCYCLE (R38, R104, R106). -/

namespace Sys2Proof.Machine

variable {cfg : Config} {s u : State} {m : McuId} {x : Mcu} {v : Byte}

/-! ### The registers along one iteration -/

theorem submitEnabled_iff : submitEnabled cfg x = true ↔
    x.ph = .submit ∧ x.txq.length < cfg.txqDepth ∧ ¬(cfg.hasCancel = true ∧ x.cancel = true) := by
  simp only [submitEnabled, cancelled, Bool.and_eq_true, beq_iff_eq, decide_eq_true_eq, Bool.not_eq_true',
    Bool.and_eq_false_iff, not_and_or, Bool.not_eq_true, and_assoc]

/-- An MCU out of reset at the top of an iteration: SUBMIT is enabled, nothing is in flight, and RXQ has an entry. -/
structure AtTop (cfg : Config) (x : Mcu) : Prop where
  rst : x.rst = false
  enabled : submitEnabled cfg x = true
  eph : x.eph = .idle
  txq : x.txq = []
  rxq : x.rxq = []
  depth : 1 ≤ cfg.rxqDepth

/-- OE after the SAMPLE of an iteration: the INTENT, or released where the drive is not held (R139). -/
def sampledOe (cfg : Config) (x : Mcu) : Byte := if cfg.driveHold then x.intent cfg else 0x00#8

/-- The registers after SUBMIT, of an MCU that had the registers `x` at the top of the iteration (R90). -/
def submitRow (cfg : Config) (x : Mcu) : Mcu := { x with txq := [x.txword cfg], ph := .retrieve }

/-- The registers after APPLY (R92). -/
def applyRow (cfg : Config) (x : Mcu) : Mcu := { x with oe := x.intent cfg, eph := .settle, ph := .retrieve }

/-- The registers after SAMPLE of the pattern `v` (R93). -/
def sampleRow (cfg : Config) (x : Mcu) (v : Byte) : Mcu := { x with rxq := [v], oe := sampledOe cfg x, ph := .retrieve }

/-- The registers after RETRIEVE of the pattern `v` (R91). -/
def retrieveRow (cfg : Config) (x : Mcu) (v : Byte) : Mcu := { x with obsl := v, oe := sampledOe cfg x, ph := .report }

/-- The registers after REPORT of the pattern `v` (R101). -/
def reportRow (cfg : Config) (x : Mcu) (v : Byte) : Mcu := { x with obsl := v, oe := sampledOe cfg x, ph := .advance }

/-- The parameters and the registers of MCU `m` in a state along the iteration. -/
structure Along (cfg : Config) (m : McuId) (row : Mcu) (u : State) : Prop where
  cfg : u.cfg = cfg
  own : u.mcu m = row

theorem Along.peerGap {row : Mcu} (hu : Along cfg m row u) : Along cfg m row (peerGap m u) :=
  ⟨(peerGap_cfg m u).trans hu.cfg, (peerGap_mcu m u).trans hu.own⟩

theorem Along.setMcu (hu : Along cfg m x u) (row : Mcu) : Along cfg m row (u.setMcu m row) :=
  ⟨(setMcu_cfg ..).trans hu.cfg, setMcu_mcu ..⟩

theorem Along.emit (hu : Along cfg m x u) (e : Event) : Along cfg m x (emit e u) := ⟨hu.cfg, (emit_mcu ..).trans hu.own⟩

theorem submit_atTop (h : AtTop cfg x) (hu : Along cfg m x u) : submit m u = u.setMcu m (submitRow cfg x) := by
  obtain ⟨rfl, rfl⟩ := hu
  rw [submit_enabled h.rst h.enabled, h.txq]
  rfl

theorem apply_submitRow (h : AtTop cfg x) (hu : Along cfg m (submitRow cfg x) u) :
    apply m u = emit (.apply m (x.txword cfg)) (u.setMcu m (applyRow cfg x)) := by
  obtain ⟨rfl, hu⟩ := hu
  rw [apply_enabled (by rw [hu]; exact h.rst) (by rw [hu]; exact h.eph) (by rw [hu]; rfl), hu, not_txword, ← h.txq]
  rfl

/-- Once the word is applied the lines read it ANDed with the word the peer shows (R36). -/
theorem line_applyRow (hu : Along cfg m (applyRow cfg x) u) : line u = x.txword cfg &&& (u.mcu m.peer).shown := by
  rw [line_eq m, hu.own, ← not_intent]
  rfl

theorem sample_applyRow (h : AtTop cfg x) (hu : Along cfg m (applyRow cfg x) u) (hv : line u = v) :
    sample m u = emit (.sample m v) (u.setMcu m (sampleRow cfg x v)) := by
  obtain ⟨rfl, hu⟩ := hu
  have hroom : (applyRow u.cfg x).rxq.length < u.cfg.rxqDepth := by
    show x.rxq.length < _
    rw [h.rxq]
    exact h.depth
  rw [sample_enabled (by rw [hu]; exact h.rst) (by rw [hu]; exact sampleEnabled_iff.mpr ⟨rfl, hroom⟩), hu, hv]
  simp only [applyRow, sampleRow, sampledOe, h.rxq, h.eph, List.nil_append]

theorem retrieve_sampleRow (h : AtTop cfg x) (hu : Along cfg m (sampleRow cfg x v) u) :
    retrieve m u = u.setMcu m (retrieveRow cfg x v) := by
  obtain ⟨rfl, hu⟩ := hu
  rw [retrieve_enabled (by rw [hu]; exact h.rst) (by rw [hu]; rfl) (by rw [hu]; rfl), hu, ← h.rxq]
  rfl

theorem report_retrieveRow (h : AtTop cfg x) (hu : Along cfg m (retrieveRow cfg x v) u) :
    report m u = emit (.report m x.role (x.txword cfg) v) (u.setMcu m (reportRow cfg x v)) := by
  obtain ⟨rfl, hu⟩ := hu
  rw [report_enabled (by rw [hu]; exact h.rst) (by rw [hu]; rfl), hu]
  rfl

theorem advance_reportRow (h : AtTop cfg x) (hu : Along cfg m (reportRow cfg x v) u) :
    advance m u = u.setMcu m { reportRow cfg x v with cnt := x.cnt + 1#3, ph := .submit } := by
  obtain ⟨rfl, hu⟩ := hu
  rw [advance_enabled (by rw [hu]; exact h.rst) (by rw [hu]; rfl), hu]
  rfl

/-! ### Operation by operation -/

theorem setMcu_emit (e : Event) (s : State) (m : McuId) (x : Mcu) : (emit e s).setMcu m x = emit e (s.setMcu m x) := by
  cases m <;> rfl

/-- Settles O38: each operation finds the registers that the one before it leaves. -/
theorem iterationRunsInOrder : Obligations.IterationRunsInOrder := by
  intro s m w v hr hp he htx hrx htd hrd hc hw hv
  have h : AtTop s.cfg (s.mcu m) :=
    ⟨hr, submitEnabled_iff.mpr ⟨hp, by rw [htx]; exact htd, hc⟩, he, htx, hrx, hrd⟩
  have hs : Along s.cfg m (s.mcu m) s := ⟨rfl, rfl⟩
  have hline : line (emit (.apply m w) (s.setMcu m (applyRow s.cfg (s.mcu m)))) = v := by
    rw [line_applyRow ((hs.setMcu _).emit _), emit_mcu, setMcu_mcu_peer, hv, hw, Mcu.shown]
  have hlast : { reportRow s.cfg (s.mcu m) v with cnt := (s.mcu m).cnt + 1#3, ph := .submit } =
      { s.mcu m with cnt := (s.mcu m).cnt + 1#3, obsl := v, oe := sampledOe s.cfg (s.mcu m) } := by
    rw [← hp]; rfl
  show Host.Outcome.next (advance m (report m (retrieve m (sample m (apply m (submit m s)))))) = _
  rw [submit_atTop h hs, apply_submitRow h (hs.setMcu _), setMcu_setMcu, ← hw,
    sample_applyRow h ((hs.setMcu _).emit _) hline, setMcu_emit, setMcu_setMcu,
    retrieve_sampleRow h (((hs.setMcu _).emit _).emit _), setMcu_emit, setMcu_emit, setMcu_setMcu,
    report_retrieveRow h (((hs.setMcu _).emit _).emit _), ← hw, setMcu_emit, setMcu_emit, setMcu_setMcu,
    advance_reportRow h ((((hs.setMcu _).emit _).emit _).emit _), hlast]
  cases m <;> rfl

/-! ### As a RUNCYCLE -/

theorem whileGoing_goesOn (h : (u.mcu m).progress = .goesOn) (f : State → State) : whileGoing m f u = f u :=
  whileGoing_goes (by simp only [engineGoes, h]) f

/-- The registers a RUNCYCLE leaves while its engine goes on: the result is what the peer shows in the state in which the
sample is taken, ANDed with the own word (R106). -/
theorem cycleSteps_goesOn (h : AtTop cfg x) (hs : Along cfg m x s) (hgo : x.progress = .goesOn) :
    (cycleSteps m s).mcu m = reportRow cfg x
      (x.txword cfg &&& ((peerGap m (apply m (peerGap m (submit m s)))).mcu m.peer).shown) := by
  have hsubmit : Along cfg m (submitRow cfg x) (peerGap m (submit m s)) := by
    rw [submit_atTop h hs]
    exact (hs.setMcu _).peerGap
  have happly : Along cfg m (applyRow cfg x) (peerGap m (apply m (peerGap m (submit m s)))) := by
    rw [apply_submitRow h hsubmit]
    exact ((hsubmit.setMcu _).emit _).peerGap
  unfold cycleSteps
  rw [whileGoing_goesOn (u := peerGap m (submit m s)) (by rw [hsubmit.own]; exact hgo) (apply m),
    whileGoing_goesOn (by rw [happly.own]; exact hgo), ← line_applyRow happly]
  generalize peerGap m (apply m (peerGap m (submit m s))) = u at happly ⊢
  have hsample : Along cfg m (sampleRow cfg x (line u)) (peerGap m (sample m u)) := by
    rw [sample_applyRow h happly rfl]
    exact ((happly.setMcu _).emit _).peerGap
  have hretrieve : Along cfg m (retrieveRow cfg x (line u)) (peerGap m (retrieve m (peerGap m (sample m u)))) := by
    rw [retrieve_sampleRow h hsample]
    exact (hsample.setMcu _).peerGap
  rw [report_retrieveRow h hretrieve, emit_mcu, setMcu_mcu]

/-- A RUNCYCLE whose REPORT has been taken emits the pair it returns (R106). -/
theorem runCycle_result (h : AtTop s.cfg (s.mcu m)) (hadv : ((cycleSteps m s).mcu m).ph = .advance) :
    runCycle m s = emit (.result m ((s.mcu m).txword s.cfg) ((cycleSteps m s).mcu m).obsl) (cycleSteps m s) := by
  simp only [runCycle, whenUp_up h.rst, h.enabled, hadv, if_true]

/-- MCU `m` is held in reset and its lines are released, as are those of an MCU in the reset state (R24, R130). -/
structure ReleasedInReset (m : McuId) (s : State) : Prop where
  rst : (s.mcu m).rst = true
  oe : (s.mcu m).oe = 0x00#8
  resetOe : s.cfg.resetOe = 0x00#8

theorem rowOf_keeps_releasedInReset {op : StepOp} {n : McuId} (h : ReleasedInReset m s) (hrow : RowOf op n s u) :
    ReleasedInReset m u := by
  obtain ⟨hr, ho, hreset⟩ := h
  obtain ⟨hframe, hstep⟩ := hrow
  have hreset' : u.cfg.resetOe = 0x00#8 := by rw [hframe.cfg, hreset]
  rcases McuId.eq_or_peer n m with rfl | rfl
  · refine ⟨hframe.rst.trans hr, ?_, hreset'⟩
    generalize s.mcu m = x at hstep hr ho
    generalize u.mcu m = y at hstep ⊢
    cases hstep with
    | same => exact ho
    | reset => exact hreset
    | submit _ hup | apply _ _ _ hup | sample _ hup | retrieve _ _ _ hup | report _ hup | advance _ hup
    | cancel _ hup => rw [hr] at hup; cases hup
  · exact ⟨by rw [hframe.peer, hr], by rw [hframe.peer, ho], hreset'⟩

theorem peerGap_keeps_releasedInReset (h : ReleasedInReset m.peer s) : ReleasedInReset m.peer (peerGap m s) := by
  obtain ⟨hr, ho, hc⟩ :=
    gapTurns_keep m.peer (fun _ _ _ => rowOf_keeps_releasedInReset) (Config.peerSteps s.draws) s h
  exact ⟨by simpa [peerGap] using hr, by simpa [peerGap] using ho, hc⟩

/-- Settles O37: a peer held in reset shows 0xFF in every gap, so the sample is the own word. -/
theorem isolatedRunCycleReturnsItsWord : Obligations.IsolatedRunCycleReturnsItsWord := by
  rintro s m hr hp he htx hrx ⟨-, -, htd, hrd⟩ hgo hc hrp hop hreset
  have h : AtTop s.cfg (s.mcu m) :=
    ⟨hr, submitEnabled_iff.mpr ⟨hp, by rw [htx]; exact htd, hc⟩, he, htx, hrx, hrd⟩
  have hseen : ReleasedInReset m.peer (peerGap m (apply m (peerGap m (submit m s)))) :=
    peerGap_keeps_releasedInReset (rowOf_keeps_releasedInReset (peerGap_keeps_releasedInReset
      (rowOf_keeps_releasedInReset ⟨hrp, hop, hreset⟩ (submit_row m s))) (apply_row m _))
  have hcycle := cycleSteps_goesOn h ⟨rfl, rfl⟩ hgo
  rw [Mcu.shown, hseen.oe, show ~~~0x00#8 = BitVec.allOnes 8 from rfl, BitVec.and_allOnes] at hcycle
  have hrun := runCycle_result h (by rw [hcycle]; rfl)
  rw [hcycle] at hrun
  refine ⟨runCycle m s, rfl, ?_, ?_⟩
  · rw [hrun, emit_mcu, hcycle]; rfl
  · rw [hrun]; rfl

end Sys2Proof.Machine
end

section
/-! Observed values are never fed back: two systems that differ only in RXQ's values, OBSL and the history take the same
turn, read the same code and still differ only so after the step (R59, R105). -/

namespace Sys2Proof.Machine

variable {s t s' t' : State} {m : McuId} {x y : Mcu}

/-! ### Two systems, MCU by MCU -/

theorem SameControl.agree (h : SameControl s t) (m : McuId) : Agree m s t := by
  obtain ⟨hc, -, -, h0, h1⟩ := h
  cases m
  · exact ⟨hc, h0⟩
  · exact ⟨hc, h1⟩

theorem sameControl_of_agree (ht : s.turns = t.turns) (hd : s.draws = t.draws) (h : ∀ m, Agree m s t) :
    SameControl s t :=
  ⟨(h .m0).cfg, ht, hd, (h .m0).own, (h .m1).own⟩

theorem SameControl.turns (h : SameControl s t) : s.turns = t.turns := h.2.1

theorem SameControl.draws (h : SameControl s t) : s.draws = t.draws := h.2.2.1

theorem SameControl.setMcu (h : SameControl s t) (hxy : SameMcuControl x y) :
    SameControl (s.setMcu m x) (t.setMcu m y) := by
  obtain ⟨hc, ht, hd, h0, h1⟩ := h
  cases m
  · exact ⟨hc, ht, hd, hxy, h1⟩
  · exact ⟨hc, ht, hd, h0, hxy⟩

/-- Emitting is no difference: the history is not compared. -/
theorem SameControl.emitIf (h : SameControl s t) (p q : Prop) [Decidable p] [Decidable q] (e f : Event) :
    SameControl (if p then emit e s else s) (if q then emit f t else t) := by
  split <;> split <;> exact h

/-- An operation of MCU `m` that takes agreeing registers of `m` to agreeing ones keeps two systems the same in control:
the rest is in its frame. -/
theorem sameControl_of_frame (h : SameControl s t) (hs : OwnFrame m s s') (ht : OwnFrame m t t')
    (hown : Agree m s' t') : SameControl s' t' := by
  refine sameControl_of_agree (by rw [hs.turns, ht.turns, h.turns]) (by rw [hs.draws, ht.draws, h.draws]) fun n => ?_
  rcases McuId.eq_or_peer m n with rfl | rfl
  · exact hown
  · refine ⟨hown.cfg, ?_⟩
    rw [hs.peer, ht.peer]
    exact (h.agree m.peer).own

/-! ### The turns of the agents and the gaps of a RUNCYCLE -/

/-- The phases select the same operation in both states, and no operation looks at an observed value. -/
theorem agentTurn_agree (h : Agree m s t) (a : Agent) : Agree m (agentTurn m s a) (agentTurn m t a) := by
  obtain ⟨hc, v, q, -, hy⟩ := h.eqs
  have hcancel : cancelled t.cfg (t.mcu m) = cancelled s.cfg (s.mcu m) := by rw [hc, hy]; rfl
  unfold agentTurn
  rw [hcancel]
  simp only [hy]
  split
  · split
    · exact cancel_agree h
    · exact submit_agree h
  · exact retrieve_agree h
  · exact report_agree h
  · exact advance_agree h
  · exact h
  · exact apply_agree h
  · exact sample_agree h

theorem gapTurn_agree (h : Agree m s t) (a : Agent) : Agree m (gapTurn m s a) (gapTurn m t a) := by
  cases a with
  | arbiter => exact agentTurn_agree h .arbiter
  | engine => exact whileGoing_agree (f := fun u => agentTurn m u .engine) h (agentTurn_agree h .engine)

theorem gapTurns_sameControl (l : List Agent) (h : SameControl s t) :
    SameControl (l.foldl (gapTurn m) s) (l.foldl (gapTurn m) t) := by
  induction l generalizing s t with
  | nil => exact h
  | cons a l ih =>
    obtain ⟨_, hs, -⟩ := gapTurn_row m s a
    obtain ⟨_, ht, -⟩ := gapTurn_row m t a
    exact ih (sameControl_of_frame h hs ht (gapTurn_agree (h.agree m) a))

/-- The peer's free turns in a gap are drawn by `draws`, which is the same in both states. -/
theorem peerGap_sameControl (m : McuId) (h : SameControl s t) : SameControl (peerGap m s) (peerGap m t) := by
  obtain ⟨hc, hturns, hdraws, hmcus⟩ := gapTurns_sameControl (m := m.peer) (Config.peerSteps s.draws) h
  simp only [peerGap, ← h.draws]
  exact ⟨hc, hturns, congrArg (· + 1) hdraws, hmcus⟩

theorem cycleSteps_sameControl (h : SameControl s t) : SameControl (cycleSteps m s) (cycleSteps m t) := by
  have hsubmit := peerGap_sameControl m
    (sameControl_of_frame h (submit_row m s).1 (submit_row m t).1 (submit_agree (h.agree m)))
  have happly := peerGap_sameControl m (sameControl_of_frame hsubmit
    (whileGoing_row (apply_row m _)).1 (whileGoing_row (apply_row m _)).1
    (whileGoing_agree (hsubmit.agree m) (apply_agree (hsubmit.agree m))))
  have hsample := peerGap_sameControl m (sameControl_of_frame happly
    (whileGoing_row (sample_row m _)).1 (whileGoing_row (sample_row m _)).1
    (whileGoing_agree (happly.agree m) (sample_agree (happly.agree m))))
  have hretrieve := peerGap_sameControl m
    (sameControl_of_frame hsample (retrieve_row m _).1 (retrieve_row m _).1 (retrieve_agree (hsample.agree m)))
  exact sameControl_of_frame hretrieve (report_row m _).1 (report_row m _).1 (report_agree (hretrieve.agree m))

theorem resetMcu_sameControl (h : SameControl s t) : SameControl (resetMcu m s) (resetMcu m t) :=
  sameControl_of_frame h (resetMcu_frame m s) (resetMcu_frame m t) (resetMcu_agree (h.agree m))

/-- Whether a RUNCYCLE is reset, waits or runs depends on nothing observed (R106). -/
theorem runCycle_sameControl (h : SameControl s t) : SameControl (runCycle m s) (runCycle m t) := by
  obtain ⟨hc, v, q, -, hy⟩ := (h.agree m).eqs
  have hrst : (t.mcu m).rst = (s.mcu m).rst := by rw [hy]
  have hen : submitEnabled t.cfg (t.mcu m) = submitEnabled s.cfg (s.mcu m) := by rw [hc, hy]; rfl
  unfold runCycle whenUp
  dsimp only
  rw [hrst, hen]
  split
  · exact resetMcu_sameControl h
  · split
    · exact (cycleSteps_sameControl h).emitIf _ _ _ _
    · exact h

/-- An operation keeps two systems the same in control: a single one by its frame, a RUNCYCLE gap by gap. -/
theorem exec_sameControl {i : Instr} (h : SameControl s t) (hs : exec i s = .next s') (ht : exec i t = .next t') :
    SameControl s' t' := by
  cases hi : composite i with
  | false => exact sameControl_of_frame h (exec_row hi hs).1 (exec_row hi ht).1 (exec_agree (h.agree _) hs ht)
  | true =>
    cases i with
    | runCycle m => cases hs; cases ht; exact runCycle_sameControl h
    | _ => cases hi

/-! ### The step -/

theorem nextTurn_sameControl (h : SameControl s t) :
    (nextTurn t).1 = (nextTurn s).1 ∧ SameControl (nextTurn s).2 (nextTurn t).2 := by
  obtain ⟨hc, hturns, hd, hm⟩ := h
  cases hs : s.turns with
  | nil =>
    rw [nextTurn_nil hs, nextTurn_nil (hturns ▸ hs), hd]
    exact ⟨rfl, hc, hturns, rfl, hm⟩
  | cons u rest =>
    rw [nextTurn_cons hs, nextTurn_cons (hturns ▸ hs)]
    exact ⟨rfl, hc, rfl, hd, hm⟩

/-- A decoder reads (ROLE, CNT) or TXQ and a turn of an agent its phases: none reads an observed value. -/
theorem fetchCode_sameControl (u : Turn) (h : SameControl s t) : fetchCode u t = fetchCode u s := by
  cases u with
  | slot m | pads m =>
    obtain ⟨-, v, q, -, hy⟩ := (h.agree m).eqs
    simp only [fetchCode, hy, slotWord]
  | agent m a =>
    obtain ⟨hc, v, q, -, hy⟩ := (h.agree m).eqs
    have hop : agentOp t.cfg (t.mcu m) a = agentOp s.cfg (s.mcu m) a := by
      rw [hc, hy]
      cases a <;> rfl
    simp only [fetchCode, hop]
  | step _ _ | rst _ _ | cancel _ _ | progress _ _ => rfl

/-- An input is set alike in both states, whatever was observed. -/
theorem idleTurn_sameControl (u : Turn) (h : SameControl s t) : SameControl (idleTurn u s) (idleTurn u t) := by
  cases u with
  | slot _ | pads _ | step _ _ | agent _ _ => exact h
  | rst m level =>
    obtain ⟨-, v, q, hlen, hy⟩ := (h.agree m).eqs
    have hset : SameControl (s.setMcu m { s.mcu m with rst := level }) (t.setMcu m { t.mcu m with rst := level }) :=
      h.setMcu (sameMcuControl_iff.mpr ⟨v, q, hlen, by rw [hy]⟩)
    cases level with
    | true => exact resetMcu_sameControl hset
    | false => exact hset
  | cancel m level | progress m level =>
    obtain ⟨-, v, q, hlen, hy⟩ := (h.agree m).eqs
    exact h.setMcu (sameMcuControl_iff.mpr ⟨v, q, hlen, by rw [hy]⟩)

/-- Settles O59: both systems take the same turn and read the same code, and neither an operation nor an idle turn looks
at an observed value. -/
theorem observedValuesAreNeverFedBack : Obligations.ObservedValuesAreNeverFedBack := by
  intro s t s' t' h hs ht
  obtain ⟨hturn, hnext⟩ := nextTurn_sameControl h
  have hcode : fetchCode (nextTurn t).1 (nextTurn t).2 = fetchCode (nextTurn s).1 (nextTurn s).2 := by
    rw [hturn, fetchCode_sameControl _ hnext]
  unfold step at hs ht
  rw [hcode, hturn] at ht
  cases hf : fetchCode (nextTurn s).1 (nextTurn s).2 with
  | none =>
    simp only [hf] at hs ht
    cases hs; cases ht
    exact idleTurn_sameControl _ hnext
  | some code =>
    cases hd : decode code.1 code.2 with
    | ok i =>
      simp only [hf, hd] at hs ht
      exact exec_sameControl hnext hs ht
    | error e =>
      simp only [hf, hd] at hs
      cases hs

end Sys2Proof.Machine
end

section
/-! The code table: decoding and encoding are inverse on well-formed operations (R50, R56, R58, R61, R63), and the values
of each slot word's row (R53 to R57, R80 to R83). -/

namespace Sys2Proof.Machine

variable {m : McuId} {w b : Byte} {i : Instr} {cfg : Config}

/-! ### Decoder and encoder -/

theorem byte_eq_of_toNat {n : Nat} (h : b.toNat = n) : b = BitVec.ofNat 8 n := by simp [← h]

/-- A word without a row of its own is the catch-all DRV_ANY (R63 (b)). -/
theorem decodeTxword_of_not_generated (h : w ∉ generatedWords) : decodeTxword m w = .drvAny m w := by
  unfold decodeTxword
  split
  case h_10 => rfl
  all_goals (rename_i hn; rw [byte_eq_of_toNat hn] at h; exact absurd (by decide) h)

/-- Settles O1: a code written as a literal decodes by evaluation; DRV_ANY alone carries a word, which has no row. -/
theorem decodeReadsEncodedInstr : Obligations.DecodeReadsEncodedInstr := by
  intro i hi
  cases i with
  | drvAny m w => exact congrArg Except.ok (decodeTxword_of_not_generated (by simpa [Instr.wellFormed] using hi))
  | _ => rfl

theorem encode_of_decodeSlot (h : decodeSlot m b = .ok i) : i.wellFormed = true ∧ encode i = (m, .slot b) := by
  unfold decodeSlot at h
  split at h
  case h_17 => cases h
  all_goals (rename_i hn; cases h; rw [byte_eq_of_toNat hn]; exact ⟨rfl, rfl⟩)

theorem encode_decodeTxword (m : McuId) (w : Byte) :
    (decodeTxword m w).wellFormed = true ∧ encode (decodeTxword m w) = (m, .txword w) := by
  by_cases h : w ∈ generatedWords
  · simp only [generatedWords, List.mem_cons, List.not_mem_nil, or_false] at h
    rcases h with rfl | rfl | rfl | rfl | rfl | rfl | rfl | rfl | rfl <;> exact ⟨rfl, rfl⟩
  · rw [decodeTxword_of_not_generated h]
    exact ⟨by simpa [Instr.wellFormed] using h, rfl⟩

theorem encode_decodeStep (m : McuId) (op : StepOp) :
    (decodeStep m op).wellFormed = true ∧ encode (decodeStep m op) = (m, .step op) := by
  cases op <;> exact ⟨rfl, rfl⟩

/-- Settles O2: format by format. -/
theorem decodedCodeIsTheOneEncoded : Obligations.DecodedCodeIsTheOneEncoded := by
  intro m c i h
  cases c with
  | slot b => exact encode_of_decodeSlot h
  | txword w => cases h; exact encode_decodeTxword m w
  | step op => cases h; exact encode_decodeStep m op

/-- Settles O4: each code is a literal and decodes by evaluation. -/
theorem wordsOfTheSpecDecode : Obligations.WordsOfTheSpecDecode := ⟨rfl, rfl, rfl, rfl, rfl, rfl⟩

/-! ### The values of a row -/

theorem encodeIndex_of_le {i : Idx} (h : i ≤ 7#4) : encodeIndex cfg i = (1#16 <<< i.toNat).setWidth 8 := by
  rw [encodeIndex, if_pos h]

@[simp] theorem encodeIndex_eight : encodeIndex cfg 8#4 = cfg.intentOor := rfl

theorem encodeIndex_of_gt {i : Idx} (h : 8#4 < i) : encodeIndex cfg i = 0x00#8 := by
  rw [encodeIndex, if_neg (by bv_omega), if_neg (by bv_omega)]

/-- The bit of a line index above 7 is outside the eight lines. -/
theorem shiftedBit_of_gt {i : Idx} (h : 7#4 < i) : (1#16 <<< i.toNat).setWidth 8 = 0x00#8 := by
  revert i
  decide

/-- Index 8 is ROLE_B at counter 0 and nothing else (R57). -/
theorem indexOf_eq_eight_iff (r : Role) (c : Count) : indexOf r c = 8#4 ↔ r = .roleB ∧ c = 0#3 := by
  cases r <;> revert c <;> decide

/-- For every index that slot selection gives, INTENT is the one bit, or INTENT_OOR where there is no line (R80). -/
theorem encodeIndex_indexOf (r : Role) (c : Count) : encodeIndex cfg (indexOf r c) =
    if indexOf r c ≤ 7#4 then (1#16 <<< (indexOf r c).toNat).setWidth 8 else cfg.intentOor := by
  split
  · next h => exact encodeIndex_of_le h
  · next h =>
    have h8 : indexOf r c = 8#4 := by have := indexOf_le r c; bv_omega
    rw [h8, encodeIndex_eight]

/-- With INTENT_OOR = 0x00 INTENT is the truncated shift for all sixteen indices: its bit leaves the byte above index 7
(R57). -/
theorem encodeIndex_eq_shift (h : cfg.intentOor = 0x00#8) (i : Idx) :
    encodeIndex cfg i = (1#16 <<< i.toNat).setWidth 8 := by
  by_cases hle : i ≤ 7#4
  · exact encodeIndex_of_le hle
  · have hgt : 7#4 < i := by bv_omega
    rw [shiftedBit_of_gt hgt]
    rcases (show i = 8#4 ∨ 8#4 < i by bv_omega) with rfl | h8
    · exact h
    · exact encodeIndex_of_gt h8

/-- Settles O5: with INTENT_OOR = 0x00 every value of a row is a shift by the row's index, a constant. -/
theorem codeTableRows : Obligations.CodeTableRows := by
  intro cfg h
  simp only [txw, intentOf, encodeIndex_eq_shift h]
  decide

/-- Settles O14: the encoder at index 8, above it, and as the shift where INTENT_OOR = 0x00. -/
theorem indexEightPullsNoLine : Obligations.IndexEightPullsNoLine := by
  refine ⟨indexOf_eq_eight_iff, fun _ => encodeIndex_eight, fun _ _ => encodeIndex_of_gt, fun cfg i h => ?_⟩
  exact ⟨encodeIndex_eq_shift h i, by rw [txw_roleB_zero, h]; rfl⟩

end Sys2Proof.Machine
end

section
/-! Slot selection, the encoder and the pad driver: what a row of the code table shows, what a transmitted word does to the
pads, and the decoder's turns that read them (R56, R58, R61, R70 to R81, R92). -/

namespace Sys2Proof.Machine

variable {s : State} {m : McuId} {r : Role} {c : Count} {w b : Byte} {rest : List Turn}

/-! ### Slot selection and the encoder -/

theorem showRow_own (hr : (s.mcu m).role = r) (hc : (s.mcu m).cnt = c) :
    showRow r c m s = emit (.slotRow m (indexOf r c) (intentOf s.cfg r c) (txw s.cfg r c)) s :=
  if_pos ⟨hr, hc⟩

theorem showIndex_own (hr : (s.mcu m).role = r) :
    showIndex r m s = emit (.index m (indexOf r (s.mcu m).cnt)) s :=
  if_pos hr

/-- A row that claims the line `i` shows its index, the line's bit and the inverse of that (R54, R55, R56). -/
theorem showRow_line {i : Idx} {v w : Byte} (hr : (s.mcu m).role = r) (hc : (s.mcu m).cnt = c)
    (h : indexOf r c = i ∧ i ≤ 7#4 ∧ (1#16 <<< i.toNat).setWidth 8 = v ∧ invert v = w) :
    showRow r c m s = { s with events := .slotRow m i v w :: s.events } := by
  obtain ⟨rfl, hle, rfl, rfl⟩ := h
  rw [showRow_own hr hc, txw, intentOf, encodeIndex_of_le hle]
  rfl

/-- Settles O6: every row of ROLE_A claims a line. -/
theorem selARowsShowTheirCodes : Obligations.SelARowsShowTheirCodes := by
  intro s m hr
  refine ⟨?_, ?_, ?_, ?_, ?_, ?_, ?_, ?_⟩ <;>
    exact fun hc => congrArg Host.Outcome.next (showRow_line hr hc (by decide))

/-- Settles O7: the row of counter 0 has index 8 and shows the parameter, every other row of ROLE_B claims a line. -/
theorem selBRowsShowTheirCodes : Obligations.SelBRowsShowTheirCodes := by
  intro s m hr
  refine ⟨fun hc => congrArg Host.Outcome.next (showRow_own hr hc), ?_, ?_, ?_, ?_, ?_, ?_, ?_⟩ <;>
    exact fun hc => congrArg Host.Outcome.next (showRow_line hr hc (by decide))

/-- Settles O9: zero extension keeps the value. -/
theorem selAShowsTheCounter : Obligations.SelAShowsTheCounter := fun _ _ hr =>
  ⟨congrArg Host.Outcome.next (showIndex_own hr), BitVec.toNat_setWidth_of_le (by decide)⟩

/-- Settles O10: a counter is below 8, so the difference does not wrap. -/
theorem selBShowsEightMinusTheCounter : Obligations.SelBShowsEightMinusTheCounter := fun _ _ hr =>
  ⟨congrArg Host.Outcome.next (showIndex_own hr), by bv_omega⟩

/-- Settles O12: INTENT at an index that slot selection gives. -/
theorem encShowsTheOneHotPattern : Obligations.EncShowsTheOneHotPattern := by
  rintro s m i rfl
  rw [← encodeIndex_indexOf]
  rfl

/-- Settles O13: XOR with a constant is its own inverse. -/
theorem invShowsTheInvertedPattern : Obligations.InvShowsTheInvertedPattern := fun _ _ =>
  ⟨rfl, fun v => by rw [BitVec.xor_assoc, BitVec.xor_self, BitVec.xor_zero]⟩

/-- A four-bit slot word decodes to the row of its role and counter (R50, R56). -/
theorem exec_decodeSlot (m : McuId) (s : State) (h : b.toNat < 16) :
    ∃ i, decodeSlot m b = .ok i ∧
      exec i s = .next (showRow (slotRole (b.setWidth 4)) (slotCount (b.setWidth 4)) m s) := by
  rw [byte_eq_of_toNat (b := b) rfl]
  generalize b.toNat = n at h
  interval_cases n <;> exact ⟨_, rfl, rfl⟩

theorem slotRole_slotWord (x : Mcu) : slotRole (slotWord x) = x.role := by
  have key : ∀ r c, slotRole (roleBit r ++ (c : Count)) = r := by intro r; cases r <;> decide
  exact key x.role x.cnt

theorem slotCount_slotWord (x : Mcu) : slotCount (slotWord x) = x.cnt := by
  have key : ∀ r c, slotCount (roleBit r ++ (c : Count)) = c := by intro r; cases r <;> decide
  exact key x.role x.cnt

/-- A turn of slot selection runs the row of the MCU's own role and counter. -/
theorem step_slot (h : s.turns = .slot m :: rest) :
    step s = .next (showRow (s.mcu m).role (s.mcu m).cnt m { s with turns := rest }) := by
  have hback : ((slotWord (s.mcu m)).setWidth 8).setWidth 4 = slotWord (s.mcu m) := by simp
  obtain ⟨i, hi, hexec⟩ := exec_decodeSlot (b := (slotWord (s.mcu m)).setWidth 8) m { s with turns := rest } (by
    rw [BitVec.toNat_setWidth_of_le (by decide)]
    exact (slotWord (s.mcu m)).isLt)
  rw [hback, slotRole_slotWord, slotCount_slotWord] at hexec
  have hf : fetchCode (nextTurn s).1 (nextTurn s).2 = some (m, .slot ((slotWord (s.mcu m)).setWidth 8)) := by
    simp [nextTurn_cons h, fetchCode]
  rw [step_of_decode_ok hf hi, nextTurn_cons h, hexec]

/-- Settles O11: the row is the MCU's own, so it is shown. -/
theorem slotTurnShowsTheOwnRow : Obligations.SlotTurnShowsTheOwnRow := by
  intro s m rest h
  rw [step_slot h, showRow_own (by simp) (by simp)]
  rfl

/-! ### The pad driver -/

/-- With its word at the head of TXQ, out of reset and with the engine idle, a row of the pad driver is the APPLY of that
word (R92, log entry 5). -/
theorem drive_enabled {q : List Byte} (hr : (s.mcu m).rst = false) (he : (s.mcu m).eph = .idle)
    (hq : (s.mcu m).txq = w :: q) :
    drive w m s = { s.setMcu m { s.mcu m with txq := q, oe := ~~~w, eph := .settle } with
      events := .apply m w :: s.events } := by
  rw [drive_head hr (by rw [hq]; rfl), apply_enabled hr he hq, emit, setMcu_events]

/-- Settles O23: each row drives its own word, whose complement is the OE written out. -/
theorem driveRowsSetTheirEnables : Obligations.DriveRowsSetTheirEnables := by
  intro s m w rest after hr he hq hafter
  have hrow : Host.Outcome.next (drive w m s) = (.next (after (~~~w)) : Host.Outcome State Fault Refusal) := by
    rw [drive_enabled hr he hq, hafter]
  refine ⟨?_, ?_, ?_, ?_, ?_, ?_, ?_, ?_, ?_⟩ <;>
    (rintro rfl; exact hrow)

/-- Settles O24: DRV_ANY drives the word it names. -/
theorem driveAnyPullsEveryZeroBit : Obligations.DriveAnyPullsEveryZeroBit := fun _ _ _ _ hr he hq =>
  congrArg Host.Outcome.next (drive_enabled hr he hq)

/-- A turn of the pad driver drives the word at the head of TXQ, whichever it is. -/
theorem step_pads {q : List Byte} (h : s.turns = .pads m :: rest) (hq : (s.mcu m).txq = w :: q) :
    step s = .next (drive w m { s with turns := rest }) := by
  have hf : fetchCode (nextTurn s).1 (nextTurn s).2 = some (m, .txword w) := by
    simp [nextTurn_cons h, fetchCode, hq]
  rw [step_of_decode_ok hf rfl, nextTurn_cons h, exec_decodeTxword]

/-- Settles O25: out of reset and with the engine idle, driving that word is applying it. -/
theorem padTurnAppliesTheHeadWord : Obligations.PadTurnAppliesTheHeadWord := by
  intro s m w q rest h hr he hq
  rw [step_pads h hq, drive_enabled (q := q) (by simpa using hr) (by simpa using he) (by simpa using hq)]
  cases m <;> rfl

end Sys2Proof.Machine
end

section
/-! The claimed lines against the counters, and the counter along several iterations: R73, R74, R107. -/

namespace Sys2Proof.Machine

variable {s : State} {m : McuId}

/-! ### The claimed line as a number -/

@[simp] theorem toNat_indexOf_roleA (c : Count) : (indexOf .roleA c).toNat = c.toNat :=
  BitVec.toNat_setWidth_of_le (by decide)

/-- A counter is below 8, so the four-bit difference does not wrap (R72). -/
@[simp] theorem toNat_indexOf_roleB (c : Count) : (indexOf .roleB c).toNat = 8 - c.toNat := by
  rw [indexOf, indexB]
  bv_omega

theorem indexOf_roleA_eq_roleB_iff (c d : Count) : indexOf .roleA c = indexOf .roleB d ↔ c.toNat + d.toNat = 8 := by
  rw [← BitVec.toNat_inj, toNat_indexOf_roleA, toNat_indexOf_roleB]
  omega

/-- Settles O16: equal counters add to 8 at 4 alone. -/
theorem claimsMeetWhereCountersAddToEight : Obligations.ClaimsMeetWhereCountersAddToEight := by
  refine ⟨fun c => ?_, ⟨rfl, rfl⟩, indexOf_roleA_eq_roleB_iff, fun c => by bv_omega⟩
  rw [indexOf_roleA_eq_roleB_iff]
  bv_omega

/-! ### Several iterations -/

/-- The operations of one iteration of MCU `m`, in order (R104). -/
def iteration (m : McuId) : List Instr := [.submit m, .apply m, .sample m, .retrieve m, .report m, .advance m]

/-- An iteration leads from the top of one to the top of the next, one count further (R38, R102). -/
theorem iteration_atTop (h : AtTop s.cfg (s.mcu m)) :
    ∃ t, execAll (iteration m) s = .next t ∧ AtTop t.cfg (t.mcu m) ∧ (t.mcu m).cnt = (s.mcu m).cnt + 1#3 := by
  obtain ⟨hr, hen, he, htx, hrx, hd⟩ := h
  obtain ⟨hp, hlen, hc⟩ := submitEnabled_iff.mp hen
  have hroom : 1 ≤ s.cfg.txqDepth := by rw [htx] at hlen; exact hlen
  refine ⟨_, iterationRunsInOrder s m _ _ hr hp he htx hrx hroom hd hc rfl rfl, ?_, by simp⟩
  simpa using ⟨hr, submitEnabled_iff.mpr ⟨hp, hlen, hc⟩, he, htx, hrx, hd⟩

/-- After `k` iterations the arbiter is at the top of one again, `k` counts further modulo 8 (R107). -/
theorem iterations_atTop (k : Nat) (h : AtTop s.cfg (s.mcu m)) :
    ∃ t, execAll (List.replicate k (iteration m)).flatten s = .next t ∧ AtTop t.cfg (t.mcu m) ∧
      (t.mcu m).cnt.toNat = ((s.mcu m).cnt.toNat + k) % 8 := by
  induction k generalizing s with
  | zero => exact ⟨s, rfl, h, (Nat.mod_eq_of_lt (s.mcu m).cnt.isLt).symm⟩
  | succ k ih =>
    obtain ⟨u, hu, htop, hone⟩ := iteration_atTop h
    obtain ⟨t, ht, htop', hcnt⟩ := ih htop
    refine ⟨t, ?_, htop', ?_⟩
    · rw [List.replicate_succ, List.flatten_cons, execAll_append hu, ht]
    · rw [hcnt, hone]
      bv_omega

/-- Settles O39: counted from 0, with the claimed index of each role as a number. -/
theorem counterAfterIterations : Obligations.CounterAfterIterations := by
  intro k s m hr hp he htx hrx htd hrd hc hzero
  obtain ⟨t, ht, htop, hcnt⟩ := iterations_atTop k
    ⟨hr, submitEnabled_iff.mpr ⟨hp, by rw [htx]; exact htd, hc⟩, he, htx, hrx, hrd⟩
  rw [hzero, BitVec.toNat_zero, Nat.zero_add] at hcnt
  obtain ⟨hph, -⟩ := submitEnabled_iff.mp htop.enabled
  exact ⟨t, ht, hcnt, hph, by rw [toNat_indexOf_roleA, hcnt], by rw [toNat_indexOf_roleB, hcnt]⟩

end Sys2Proof.Machine
end

section
/-! The transmitted word as a function of role and counter: with INTENT_OOR = 0x00 two words agree exactly where the claimed
line indices do, and the word that pulls no line is that of index 8 (R83). -/

namespace Sys2Proof.Machine

variable {cfg : Config}

/-- The inverse of a transmitted word is its INTENT (R55). -/
@[simp] theorem not_invert (v : Byte) : ~~~(invert v) = v := by
  rw [invert, show 0xFF#8 = BitVec.allOnes 8 from rfl, BitVec.xor_allOnes, BitVec.not_not]

theorem invert_inj {v w : Byte} : invert v = invert w ↔ v = w :=
  (Function.LeftInverse.injective not_invert).eq_iff

/-- The bits of the indices 0 to 7 differ, and that of index 8 is the only one outside the eight lines. -/
theorem shiftedBit_inj {i j : Idx} (hi : i ≤ 8#4) (hj : j ≤ 8#4) :
    (1#16 <<< i.toNat).setWidth 8 = (1#16 <<< j.toNat).setWidth 8 ↔ i = j := by
  revert i j
  decide

/-- For one role no line index comes twice: the index is the counter, or 8 less the counter (R70, R71). -/
theorem indexOf_inj (r : Role) {c d : Count} : indexOf r c = indexOf r d ↔ c = d := by
  rw [← BitVec.toNat_inj]
  cases r with
  | roleA => rw [toNat_indexOf_roleA, toNat_indexOf_roleA, BitVec.toNat_inj]
  | roleB =>
    rw [toNat_indexOf_roleB, toNat_indexOf_roleB]
    bv_omega

/-- Two transmitted words agree exactly where the claimed line indices do. -/
theorem txw_eq_txw_iff (h : cfg.intentOor = 0x00#8) (r q : Role) (c d : Count) :
    txw cfg r c = txw cfg q d ↔ indexOf r c = indexOf q d := by
  simp only [txw, intentOf, invert_inj, encodeIndex_eq_shift h]
  exact shiftedBit_inj (indexOf_le r c) (indexOf_le q d)

/-- The word 0xFF is ROLE_B's at counter 0, so no other slot word gives it (R57). -/
theorem txw_eq_0xFF_iff (h : cfg.intentOor = 0x00#8) (r : Role) (c : Count) :
    txw cfg r c = 0xFF#8 ↔ r = .roleB ∧ c = 0#3 := by
  have hFF : txw cfg .roleB 0#3 = 0xFF#8 := by rw [txw_roleB_zero, h]; rfl
  rw [← hFF, txw_eq_txw_iff h]
  exact indexOf_eq_eight_iff r c

/-- Settles O15: the inverse of a word is an INTENT, with one bit at most, and words agree where line indices do. -/
theorem transmittedWordLaws : Obligations.TransmittedWordLaws := by
  intro cfg h
  refine ⟨fun r c => ?formula, fun r c => ?oneZeroBit, fun c => ?roleA, fun c => ?roleB, fun c d => ?across,
    fun r c d => ?within⟩
  case formula => rw [txw, intentOf, encodeIndex_eq_shift h, invert]
  case oneZeroBit =>
    rw [txw, not_invert]
    exact encodeIndex_at_most_one_bit h (indexOf r c)
  case roleA => simp [txw_eq_0xFF_iff h]
  case roleB => simp [txw_eq_0xFF_iff h]
  case across => rw [txw_eq_txw_iff h, indexOf_roleA_eq_roleB_iff]
  case within => exact fun heq => (indexOf_inj r).mp ((txw_eq_txw_iff h r r c d).mp heq)

end Sys2Proof.Machine
end

section
/-! The transfer: the enabling conditions of SUBMIT, APPLY, SAMPLE and RETRIEVE with what each does where it is enabled and
where it is not, the ports that show those conditions, and the turns of the two agents (R90 to R94, R96, R104). -/

namespace Sys2Proof.Machine

variable {cfg : Config} {x : Mcu} {s t : State} {m : McuId} {rest : List Turn}

/-! ### The conditions, negated -/

theorem cancelled_iff : cancelled cfg x = true ↔ cfg.hasCancel = true ∧ x.cancel = true := by
  rw [cancelled, Bool.and_eq_true]

theorem submitEnabled_eq_false_iff : submitEnabled cfg x = false ↔
    x.ph ≠ .submit ∨ cfg.txqDepth ≤ x.txq.length ∨ (cfg.hasCancel = true ∧ x.cancel = true) := by
  rw [← Bool.not_eq_true, submitEnabled_iff, not_and_or, not_and_or, Nat.not_lt, not_not]

theorem eph_ne_settle_iff : x.eph ≠ .settle ↔ x.eph = .idle := by
  cases x.eph <;> decide

theorem sampleEnabled_eq_false_iff : sampleEnabled cfg x = false ↔
    x.eph = .idle ∨ cfg.rxqDepth ≤ x.rxq.length := by
  rw [← Bool.not_eq_true, sampleEnabled_iff, not_and_or, Nat.not_lt, ← ne_eq, eph_ne_settle_iff]

/-! ### The four operations of the transfer -/

/-- An operation that leaves the state as it is answers no other next state. -/
theorem eq_of_next_of_unchanged {u : State} (hu : u = s)
    (h : (.next u : Host.Outcome State Fault Refusal) = .next t) : t = s :=
  (Host.Outcome.next.inj h).symm.trans hu

/-- Settles O21: the two clauses are the condition of SUBMIT and its negation. -/
theorem submitPushesTheWord : Obligations.SubmitPushesTheWord := by
  intro s m hr
  constructor
  · intro hp hroom hc
    exact congrArg Host.Outcome.next (submit_enabled hr (submitEnabled_iff.mpr ⟨hp, hroom, hc⟩))
  · intro h t
    exact eq_of_next_of_unchanged (submit_waits hr (submitEnabled_eq_false_iff.mpr h))

/-- Settles O22: an idle engine takes the head of TXQ, and there is none to take in E_SETTLE or with TXQ empty. -/
theorem applyDrivesTheOldestWord : Obligations.ApplyDrivesTheOldestWord := by
  intro s m hr
  constructor
  · intro w q he hq
    exact congrArg Host.Outcome.next (by rw [apply_enabled hr he hq, emit, setMcu_events])
  · intro h t
    exact eq_of_next_of_unchanged (apply_waits hr h)

/-- Settles O26: the two clauses are the condition of SAMPLE and its negation. -/
theorem sampleLatchesTheLines : Obligations.SampleLatchesTheLines := by
  intro s m hr
  constructor
  · intro he hroom
    have hen := sampleEnabled_iff.mpr ⟨he, hroom⟩
    exact congrArg Host.Outcome.next (by rw [sample_enabled hr hen, emit, setMcu_events, line])
  · intro h t
    exact eq_of_next_of_unchanged (sample_waits hr (sampleEnabled_eq_false_iff.mpr h))

/-- Settles O27: PH_RETRIEVE takes the head of RXQ, and there is none to take in another phase or with RXQ empty. -/
theorem retrieveTakesTheOldestResult : Obligations.RetrieveTakesTheOldestResult := by
  intro s m hr
  constructor
  · intro v q hp hq
    exact congrArg Host.Outcome.next (retrieve_enabled hr hp hq)
  · intro h t
    exact eq_of_next_of_unchanged (retrieve_waits hr h)

/-! ### The ports -/

theorem submitEnabled_eq_handshake (cfg : Config) (x : Mcu) :
    submitEnabled cfg x = (txValid cfg x && txReady cfg x) :=
  Bool.and_right_comm ..

theorem retrieveEnabled_eq_handshake (x : Mcu) : retrieveEnabled x = (rxValid x && rxReady x) :=
  Bool.and_comm ..

theorem rxData_of_cons {v : Byte} {q : List Byte} (h : x.rxq = v :: q) : rxData x = some v := by
  rw [rxData, h, List.head?_cons]

/-- Settles O20: both conditions are handshakes, the result port is the head of RXQ, the other ports show a register. -/
theorem portsReadTheStepRules : Obligations.PortsReadTheStepRules := fun s _ x _ =>
  ⟨submitEnabled_eq_handshake s.cfg x, retrieveEnabled_eq_handshake x, rfl, fun _ _ => rxData_of_cons, rfl, rfl, rfl,
    rfl, rfl, rfl⟩

/-! ### The turns of the agents -/

/-- In PH_SUBMIT without a cancellation the arbiter's turn is SUBMIT (R104). -/
theorem arbiterTurn_eq_submit (hp : (s.mcu m).ph = .submit)
    (hc : ¬(s.cfg.hasCancel = true ∧ (s.mcu m).cancel = true)) : agentTurn m s .arbiter = submit m s := by
  simp only [agentTurn, hp, if_neg (mt cancelled_iff.mp hc)]

/-- In PH_SUBMIT a cancellation beats SUBMIT (R103). -/
theorem arbiterTurn_eq_cancel (hp : (s.mcu m).ph = .submit)
    (hc : s.cfg.hasCancel = true ∧ (s.mcu m).cancel = true) : agentTurn m s .arbiter = cancel m s := by
  simp only [agentTurn, hp, if_pos (cancelled_iff.mpr hc)]

/-- The next state of an agent's turn is what the turn makes of the state with the turn used up. -/
theorem step_of_agentTurn_eq {a : Agent} (h : s.turns = .agent m a :: rest)
    (ht : agentTurn m { s with turns := rest } a = t) : step s = .next t :=
  ht ▸ step_agent h

/-- Settles O40: each phase of the engine and of the arbiter makes the turn the operation of its row, PH_HALT none. -/
theorem agentTurnsFollowThePhases : Obligations.AgentTurnsFollowThePhases := by
  rintro s m rest u rfl
  refine ⟨fun h => ⟨fun he => ?apply, fun he => ?sample⟩, fun h => ⟨fun hp hc => ?submit, fun hp hh hc => ?cancel,
    fun hp => ?retrieve, fun hp => ?report, fun hp => ?advance, fun hp => ?halt⟩⟩
  case apply => exact step_of_agentTurn_eq h (by simp only [agentTurn, mk_mcu, he])
  case sample => exact step_of_agentTurn_eq h (by simp only [agentTurn, mk_mcu, he])
  case submit => exact step_of_agentTurn_eq h (arbiterTurn_eq_submit (by rwa [mk_mcu]) (by rwa [mk_mcu]))
  case cancel => exact step_of_agentTurn_eq h (arbiterTurn_eq_cancel (by rwa [mk_mcu]) ⟨hh, by rwa [mk_mcu]⟩)
  case retrieve => exact step_of_agentTurn_eq h (by simp only [agentTurn, mk_mcu, hp])
  case report => exact step_of_agentTurn_eq h (by simp only [agentTurn, mk_mcu, hp])
  case advance => exact step_of_agentTurn_eq h (by simp only [agentTurn, mk_mcu, hp])
  case halt => exact step_of_agentTurn_eq h (by simp only [agentTurn, mk_mcu, hp])

end Sys2Proof.Machine
end

section
/-! The report, the counter and the cancellation: what REPORT, ADVANCE and CANCEL do in their phase and that they wait
elsewhere, and the halted arbiter (R100 to R103). -/

namespace Sys2Proof.Machine

variable {cfg : Config} {x : Mcu}

theorem cancelEnabled_iff : cancelEnabled cfg x = true ↔ x.ph = .submit ∧ cfg.hasCancel = true ∧ x.cancel = true := by
  rw [cancelEnabled, Bool.and_eq_true, beq_iff_eq, cancelled_iff]

theorem cancelEnabled_eq_false_iff : cancelEnabled cfg x = false ↔
    x.ph ≠ .submit ∨ cfg.hasCancel = false ∨ x.cancel = false := by
  rw [← Bool.not_eq_true, cancelEnabled_iff, not_and_or, not_and_or, Bool.not_eq_true, Bool.not_eq_true]

/-- Counting in three bits is counting modulo 8 (R102). -/
theorem count_add_one (c : Count) : c + 1#3 = BitVec.ofNat 3 ((c.toNat + 1) % 8) := by
  bv_omega

/-- Settles O32: DELAY_A is the identity on states. -/
theorem delayHasNoEffect : Obligations.DelayHasNoEffect := fun _ _ => rfl

/-- Settles O33: in the model OBSL keeps the value that was reported. -/
theorem reportEmitsTheTriple : Obligations.ReportEmitsTheTriple := by
  intro s m hr
  constructor
  · intro hp
    exact ⟨(s.mcu m).obsl, congrArg Host.Outcome.next (by rw [report_enabled hr hp, emit, setMcu_events]; rfl)⟩
  · intro hp t
    exact eq_of_next_of_unchanged (report_waits hr hp)

/-- Settles O34: the increment in three bits is the one modulo 8. -/
theorem advanceStepsTheCounter : Obligations.AdvanceStepsTheCounter := by
  intro s m hr
  constructor
  · intro hp
    exact congrArg Host.Outcome.next (by rw [advance_enabled hr hp, count_add_one])
  · intro hp t
    exact eq_of_next_of_unchanged (advance_waits hr hp)

/-- Settles O35: a cancellation enables CANCEL and disables SUBMIT, and PH_HALT enables no operation of the arbiter. -/
theorem cancelHaltsTheArbiter : Obligations.CancelHaltsTheArbiter := by
  intro s m hr
  refine ⟨fun hh hp hc => ⟨?halts, fun t => ?beatsSubmit⟩, fun h t => ?waits, fun hp i hi t => ?halted⟩
  case halts => exact congrArg Host.Outcome.next (cancel_enabled hr (cancelEnabled_iff.mpr ⟨hp, hh, hc⟩))
  case beatsSubmit =>
    exact eq_of_next_of_unchanged (submit_waits hr (submitEnabled_eq_false_iff.mpr (.inr (.inr ⟨hh, hc⟩))))
  case waits =>
    exact eq_of_next_of_unchanged (cancel_waits hr (cancelEnabled_eq_false_iff.mpr (or_left_comm.mp h)))
  case halted =>
    simp only [List.mem_cons, List.not_mem_nil, or_false] at hi
    rcases hi with rfl | rfl | rfl | rfl | rfl
    · exact eq_of_next_of_unchanged (submit_waits hr (submitEnabled_eq_false_iff.mpr (.inl (by simp [hp]))))
    · exact eq_of_next_of_unchanged (retrieve_waits hr (.inl (by simp [hp])))
    · exact eq_of_next_of_unchanged (report_waits hr (by simp [hp]))
    · exact eq_of_next_of_unchanged (advance_waits hr (by simp [hp]))
    · exact eq_of_next_of_unchanged (cancel_waits hr (cancelEnabled_eq_false_iff.mpr (.inl (by simp [hp]))))

end Sys2Proof.Machine
end

section
/-! The transition table of the sequencer: each change of PH is a row of it, by the operation that row names (R104). -/

namespace Sys2Proof.Machine

variable {cfg : Config} {lines : Byte} {op : StepOp} {x y : Mcu}

/-- Slot selection and APPLY have more than one form; every other operation has its name alone (R61, R63). -/
theorem eq_decodeStep_of_opOf {i : Instr} (h : opOf i = op) (hA : op ≠ .selA) (hB : op ≠ .selB) (happly : op ≠ .apply) :
    i = decodeStep i.mcu op := by
  subst h
  cases i with
  | selA0 | selA1 | selA2 | selA3 | selA4 | selA5 | selA6 | selA7 | selA => exact absurd rfl hA
  | selB0 | selB1 | selB2 | selB3 | selB4 | selB5 | selB6 | selB7 | selB => exact absurd rfl hB
  | drvL0 | drvL1 | drvL2 | drvL3 | drvL4 | drvL5 | drvL6 | drvL7 | drvNone | drvAny | apply => exact absurd rfl happly
  | enc | inv | submit | retrieve | sample | delayA | report | advance | cancel | runCycle => rfl

/-- Settles O41: of the operations of an MCU each that writes PH is one row of the table, and a RUNCYCLE takes the rows
from SUBMIT on. -/
theorem phaseChangesAreThoseOfTheTable : Obligations.PhaseChangesAreThoseOfTheTable := by
  intro s t i m hi h
  rcases exec_mcu hi h with e | ⟨hr, e⟩ | ⟨rfl, hstep⟩ | ⟨hrun, hr, hs, e⟩
  · exact .inl (by rw [e])
  · exact .inr (.inl ⟨hr, by rw [e]; rfl⟩)
  · have hname {op} (hop : opOf i = op) := eq_decodeStep_of_opOf hop
    generalize opOf i = op at hstep hname
    generalize s.mcu i.mcu = x at hstep ⊢
    generalize t.mcu i.mcu = y at hstep ⊢
    cases hstep with
    | same | apply | sample => exact .inl rfl
    | reset _ _ hr => exact .inr (.inl ⟨hr, rfl⟩)
    | submit _ _ hen =>
      obtain ⟨hp, hroom, hc⟩ := submitEnabled_iff.mp hen
      exact .inr (.inr (.inl ⟨hp, hroom, hc, .inl ⟨hname rfl nofun nofun nofun, rfl, rfl⟩⟩))
    | cancel _ _ hen =>
      obtain ⟨hp, hh, hc⟩ := cancelEnabled_iff.mp hen
      exact .inr (.inr (.inr (.inl ⟨hp, rfl, hname rfl nofun nofun nofun, hh, hc⟩)))
    | retrieve _ _ _ _ hp hq =>
      exact .inr (.inr (.inr (.inr (.inl ⟨hp, rfl, hname rfl nofun nofun nofun, hq⟩))))
    | report _ _ hp =>
      exact .inr (.inr (.inr (.inr (.inr (.inl ⟨hp, rfl, hname rfl nofun nofun nofun⟩)))))
    | advance _ _ hp =>
      exact .inr (.inr (.inr (.inr (.inr (.inr ⟨hp, rfl, hname rfl nofun nofun nofun, rfl⟩)))))
  · obtain ⟨hp, hroom, hc⟩ := submitEnabled_iff.mp hs
    refine .inr (.inr (.inl ⟨hp, hroom, hc, .inr ?_⟩))
    rw [e]
    exact (cycleSteps_mcu hr hs).ph.imp (fun ⟨hph, _, hrx⟩ => ⟨hrun, hph, hrx⟩) (fun hadv => ⟨hrun, hadv⟩)

end Sys2Proof.Machine
end

section
/-! The stalled arbiter: while it waits on its engine and the engine takes no step, nothing changes a register of its
MCU (R111, R139). -/

namespace Sys2Proof.Machine

variable {cfg : Config} {lines : Byte} {op : StepOp} {x y : Mcu} {s t : State} {m : McuId} {i : Instr}

theorem exec_next (i : Instr) (s : State) : ∃ t, exec i s = .next t := by
  cases i <;> exact ⟨_, rfl⟩

theorem exec_cfg (h : exec i s = .next t) : t.cfg = s.cfg :=
  exec_keep (P := fun u => u.cfg = s.cfg) (fun _ _ _ _ hc hrow => hrow.1.cfg.trans hc) (fun _ => id) rfl h

theorem engineStep_iff : engineStep i = true ↔ opOf i = .apply ∨ opOf i = .sample := by
  cases i <;> simp [engineStep, opOf]

theorem submitEnabled_of_waiting (h : Waiting cfg x) : submitEnabled cfg x = false := by
  rw [submitEnabled_eq_false_iff]
  rcases h with ⟨hp, -⟩ | ⟨-, hfull, -⟩
  · exact .inl (by simp [hp])
  · exact .inr (.inl hfull)

/-- An MCU whose arbiter waits changes by a step of its engine alone. -/
theorem rowStep_of_waiting (hr : x.rst = false) (hw : Waiting cfg x) (happly : op ≠ .apply) (hsample : op ≠ .sample)
    (h : RowStep cfg lines op x y) : y = x := by
  cases h with
  | same => rfl
  | reset _ _ hr' => rw [hr] at hr'; cases hr'
  | submit _ _ hen => rw [submitEnabled_of_waiting hw] at hen; cases hen
  | apply => exact absurd rfl happly
  | sample => exact absurd rfl hsample
  | retrieve _ _ _ _ hp hq => simp [Waiting, hp, hq] at hw
  | report _ _ hp => simp [Waiting, hp] at hw
  | advance _ _ hp => simp [Waiting, hp] at hw
  | cancel _ _ hen =>
    obtain ⟨hp, hc⟩ := cancelEnabled_iff.mp hen
    simp [Waiting, hp, cancelled_iff.mpr hc] at hw

/-- The turn of a waiting arbiter is SUBMIT or RETRIEVE, and neither is enabled. -/
theorem arbiterTurn_of_waiting (hr : (s.mcu m).rst = false) (hw : Waiting s.cfg (s.mcu m)) :
    agentTurn m s .arbiter = s := by
  rcases hw with ⟨hp, hq⟩ | ⟨hp, hfull, hc⟩
  · simp only [agentTurn, hp, retrieve_waits hr (.inr hq)]
  · rw [arbiterTurn_eq_submit hp (by rw [← cancelled_iff, hc]; decide)]
    exact submit_waits hr (submitEnabled_eq_false_iff.mpr (.inr (.inl hfull)))

/-- In a gap of its peer's RUNCYCLE a stalled MCU whose engine has stopped does nothing. -/
theorem gapTurn_of_stalled (hr : (s.mcu m).rst = false) (hw : Waiting s.cfg (s.mcu m))
    (hstop : engineGoes (s.mcu m) = false) (a : Agent) : gapTurn m s a = s := by
  cases a with
  | arbiter => exact arbiterTurn_of_waiting hr hw
  | engine => exact whileGoing_stopped hstop fun u => agentTurn m u .engine

theorem runCycle_of_stalled_peer (hr : (s.mcu m.peer).rst = false) (hw : Waiting s.cfg (s.mcu m.peer))
    (hstop : engineGoes (s.mcu m.peer) = false) : (runCycle m s).mcu m.peer = s.mcu m.peer := by
  refine (runCycle_keep_peer (kept := (· = s.mcu m.peer)) (fun u a hc hu => ?_) rfl).1
  rw [gapTurn_of_stalled (by rwa [hu]) (by rwa [hu, hc]) (by rwa [hu]), hu]

/-- One operation that is no step of the stalled MCU's engine leaves its registers. -/
theorem exec_mcu_of_stalled (hr : (s.mcu m).rst = false) (hw : Waiting s.cfg (s.mcu m))
    (hi : (i.mcu = m → engineStep i = false) ∧ (i = .runCycle m.peer → engineGoes (s.mcu m) = false))
    (h : exec i s = .next t) : t.mcu m = s.mcu m := by
  obtain ⟨hengine, hgap⟩ := hi
  by_cases hpeer : i = .runCycle m.peer
  · have hstop := hgap hpeer
    subst hpeer
    cases h
    simpa using runCycle_of_stalled_peer (m := m.peer) (by simpa using hr) (by simpa using hw) (by simpa using hstop)
  · rcases exec_mcu hpeer h with e | ⟨hr', -⟩ | ⟨rfl, hstep⟩ | ⟨-, -, hen, -⟩
    · exact e
    · rw [hr] at hr'; cases hr'
    · have hno := mt engineStep_iff.mpr (Bool.eq_false_iff.mp (hengine rfl))
      exact rowStep_of_waiting hr hw (not_or.mp hno).1 (not_or.mp hno).2 hstep
    · rw [submitEnabled_of_waiting hw] at hen; cases hen

/-- Settles O60, by induction on the run: each operation leaves the stalled MCU and the parameters as they are, so the
stall goes on. -/
theorem stalledArbiterStaysWhereItIs : Obligations.StalledArbiterStaysWhereItIs := by
  intro l
  induction l with
  | nil => exact fun s _ _ _ _ => ⟨s, rfl, rfl⟩
  | cons i l ih =>
    intro s m hr hw hl
    obtain ⟨hi, hrest⟩ := List.forall_mem_cons.mp hl
    obtain ⟨u, hu⟩ := exec_next i s
    have hkeep := exec_mcu_of_stalled hr hw hi hu
    obtain ⟨t, ht, hown⟩ := ih u m (by rwa [hkeep]) (by rwa [hkeep, exec_cfg hu]) (by rwa [hkeep])
    exact ⟨t, by rw [execAll_cons l hu, ht], hown.trans hkeep⟩

end Sys2Proof.Machine
end

section
/-! RUNCYCLE from the top of an iteration, with its events: the state along it while the engine goes on and where the
engine stops, whatever the peer does in the gaps (R95, R106). -/

namespace Sys2Proof.Machine

variable {s u : State} {m : McuId} {x row : Mcu} {l : List Event} {v : Byte}

/-! ### The state along a RUNCYCLE -/

/-- `u` is reached from `s` along an iteration of MCU `m`, with these registers of `m` and these events since. -/
structure Reached (s : State) (m : McuId) (row : Mcu) (l : List Event) (u : State) : Prop
    extends Along s.cfg m row u where
  turns : u.turns = s.turns
  events : u.events = l ++ s.events

theorem Reached.refl (s : State) (m : McuId) : Reached s m (s.mcu m) [] s := ⟨⟨rfl, rfl⟩, rfl, rfl⟩

theorem Reached.setMcu (hu : Reached s m x l u) (row : Mcu) : Reached s m row l (u.setMcu m row) :=
  ⟨hu.toAlong.setMcu row, (setMcu_turns ..).trans hu.turns, (setMcu_events ..).trans hu.events⟩

theorem Reached.emit (hu : Reached s m x l u) (e : Event) : Reached s m x (e :: l) (emit e u) :=
  ⟨hu.toAlong.emit e, hu.turns, congrArg (e :: ·) hu.events⟩

/-- In a gap the peer alone emits. -/
theorem Reached.peerGap (hu : Reached s m x l u) :
    ∃ k, (∀ e ∈ k, e.mcu = m.peer) ∧ Reached s m x (k ++ l) (peerGap m u) := by
  obtain ⟨k, hk, hpeer⟩ := peerGap_events m u
  exact ⟨k, hpeer, hu.toAlong.peerGap, (peerGap_turns m u).trans hu.turns, by rw [hk, hu.events, List.append_assoc]⟩

theorem Reached.submit (h : AtTop s.cfg x) (hu : Reached s m x l u) :
    Reached s m (submitRow s.cfg x) l (submit m u) := by
  rw [submit_atTop h hu.toAlong]
  exact hu.setMcu _

theorem Reached.apply (h : AtTop s.cfg x) (hu : Reached s m (submitRow s.cfg x) l u) :
    Reached s m (applyRow s.cfg x) (.apply m (x.txword s.cfg) :: l) (apply m u) := by
  rw [apply_submitRow h hu.toAlong]
  exact (hu.setMcu _).emit _

theorem Reached.sample (h : AtTop s.cfg x) (hu : Reached s m (applyRow s.cfg x) l u) (hv : line u = v) :
    Reached s m (sampleRow s.cfg x v) (.sample m v :: l) (sample m u) := by
  rw [sample_applyRow h hu.toAlong hv]
  exact (hu.setMcu _).emit _

theorem Reached.retrieve (h : AtTop s.cfg x) (hu : Reached s m (sampleRow s.cfg x v) l u) :
    Reached s m (retrieveRow s.cfg x v) l (retrieve m u) := by
  rw [retrieve_sampleRow h hu.toAlong]
  exact hu.setMcu _

theorem Reached.report (h : AtTop s.cfg x) (hu : Reached s m (retrieveRow s.cfg x v) l u) :
    Reached s m (reportRow s.cfg x v) (.report m x.role (x.txword s.cfg) v :: l) (report m u) := by
  rw [report_retrieveRow h hu.toAlong]
  exact (hu.setMcu _).emit _

/-! ### An engine that stops -/

theorem Along.whileGoing_goes {cfg : Config} (hu : Along cfg m row u) (h : engineGoes row = true) (f : State → State) :
    whileGoing m f u = f u :=
  Machine.whileGoing_goes (by rwa [hu.own]) f

theorem Along.whileGoing_stopped {cfg : Config} (hu : Along cfg m row u) (h : engineGoes row = false)
    (f : State → State) : whileGoing m f u = u :=
  Machine.whileGoing_stopped (by rwa [hu.own]) f

/-- The steps of a RUNCYCLE after the gap that follows its APPLY. -/
def cycleRest (m : McuId) (u : State) : State :=
  report m (peerGap m (retrieve m (peerGap m (whileGoing m (sample m) u))))

theorem cycleSteps_eq (m : McuId) (s : State) :
    cycleSteps m s = cycleRest m (peerGap m (whileGoing m (apply m) (peerGap m (submit m s)))) := rfl

/-- Where the engine has stopped with no result to take, RETRIEVE and REPORT wait (R106). -/
theorem Reached.cycleRest_stopped (hu : Reached s m row l u) (hr : row.rst = false) (hp : row.ph = .retrieve)
    (hq : row.rxq = []) (hstop : engineGoes row = false) :
    ∃ k, (∀ e ∈ k, e.mcu = m.peer) ∧ Reached s m row (k ++ l) (cycleRest m u) := by
  obtain ⟨k, hk, hgap⟩ := hu.peerGap
  obtain ⟨k', hk', hgap'⟩ := hgap.peerGap
  refine ⟨k' ++ k, List.forall_mem_append.mpr ⟨hk', hk⟩, ?_⟩
  rw [cycleRest, hu.whileGoing_stopped hstop,
    retrieve_waits (by rw [hgap.own]; exact hr) (.inr (by rw [hgap.own]; exact hq)),
    report_waits (by rw [hgap'.own]; exact hr) (by rw [hgap'.own, hp]; nofun), List.append_assoc]
  exact hgap'

/-! ### The three ways of a RUNCYCLE -/

/-- While the engine goes on the SAMPLE is taken, and with it the result is retrieved and reported. -/
theorem Reached.cycleRest_goesOn (h : AtTop s.cfg x) (hu : Reached s m (applyRow s.cfg x) l u)
    (hgo : x.progress = .goesOn) (hv : line u = v) :
    ∃ k, (∀ e ∈ k, e.mcu = m.peer) ∧
      Reached s m (reportRow s.cfg x v) (.report m x.role (x.txword s.cfg) v :: (k ++ .sample m v :: l))
        (cycleRest m u) := by
  obtain ⟨k, hk, hsample⟩ := (hu.sample h hv).peerGap
  obtain ⟨k', hk', hretrieve⟩ := (hsample.retrieve h).peerGap
  refine ⟨k' ++ k, List.forall_mem_append.mpr ⟨hk', hk⟩, ?_⟩
  rw [cycleRest, hu.whileGoing_goes (by simp [engineGoes, applyRow, hgo]), List.append_assoc]
  exact hretrieve.report h

theorem runCycle_without_result (h : AtTop s.cfg (s.mcu m)) (hph : ((cycleSteps m s).mcu m).ph ≠ .advance) :
    runCycle m s = cycleSteps m s := by
  simp only [runCycle, whenUp_up h.rst, h.enabled, if_true, if_neg hph]

theorem forall_mem_gaps {p : Event → Prop} {k₁ k₂ k₃ : List Event} (h₁ : ∀ e ∈ k₁, p e) (h₂ : ∀ e ∈ k₂, p e)
    (h₃ : ∀ e ∈ k₃, p e) : ∀ e ∈ k₁ ++ k₂ ++ k₃, p e :=
  List.forall_mem_append.mpr ⟨List.forall_mem_append.mpr ⟨h₁, h₂⟩, h₃⟩

/-- A RUNCYCLE whose engine goes on: the gaps are those after SUBMIT, after APPLY and after SAMPLE (R106). -/
theorem runCycle_goesOn (h : AtTop s.cfg (s.mcu m)) (hgo : (s.mcu m).progress = .goesOn)
    (hv : v = (s.mcu m).txword s.cfg &&& ((peerGap m (apply m (peerGap m (submit m s)))).mcu m.peer).shown) :
    ∃ last between first : List Event, (∀ e ∈ last ++ between ++ first, e.mcu = m.peer) ∧
      Reached s m (reportRow s.cfg (s.mcu m) v)
        (.result m ((s.mcu m).txword s.cfg) v :: .report m (s.mcu m).role ((s.mcu m).txword s.cfg) v :: last ++
          .sample m v :: between ++ .apply m ((s.mcu m).txword s.cfg) :: first) (runCycle m s) := by
  obtain ⟨first, hfirst, hsubmit⟩ := ((Reached.refl s m).submit h).peerGap
  obtain ⟨between, hbetween, happly⟩ := (hsubmit.apply h).peerGap
  obtain ⟨last, hlast, hcycle⟩ := happly.cycleRest_goesOn h hgo ((line_applyRow happly.toAlong).trans hv.symm)
  rw [← hsubmit.whileGoing_goes (by simp [engineGoes, submitRow, hgo]) (apply m), ← cycleSteps_eq] at hcycle
  refine ⟨last, between, first, forall_mem_gaps hlast hbetween hfirst, ?_⟩
  rw [runCycle_result h (by rw [hcycle.own]; rfl),
    show ((cycleSteps m s).mcu m).obsl = v by rw [hcycle.own]; rfl]
  simpa only [List.append_assoc, List.cons_append, List.append_nil] using
    hcycle.emit (.result m ((s.mcu m).txword s.cfg) v)

/-- A RUNCYCLE whose engine gives no result is left waiting with its word applied (R106). -/
theorem runCycle_givesNoResult (h : AtTop s.cfg (s.mcu m)) (hstop : (s.mcu m).progress = .givesNoResult) :
    ∃ last between first : List Event, (∀ e ∈ last ++ between ++ first, e.mcu = m.peer) ∧
      Reached s m (applyRow s.cfg (s.mcu m))
        (last ++ between ++ .apply m ((s.mcu m).txword s.cfg) :: first) (runCycle m s) := by
  obtain ⟨first, hfirst, hsubmit⟩ := ((Reached.refl s m).submit h).peerGap
  obtain ⟨between, hbetween, happly⟩ := (hsubmit.apply h).peerGap
  obtain ⟨last, hlast, hcycle⟩ := happly.cycleRest_stopped h.rst rfl h.rxq (by simp [engineGoes, applyRow, hstop])
  rw [← hsubmit.whileGoing_goes (by simp [engineGoes, submitRow, hstop, h.eph]) (apply m),
    ← cycleSteps_eq] at hcycle
  refine ⟨last, between, first, forall_mem_gaps hlast hbetween hfirst, ?_⟩
  rw [runCycle_without_result h (by rw [hcycle.own]; nofun)]
  simpa only [List.append_assoc, List.cons_append, List.append_nil] using hcycle

/-- A RUNCYCLE whose engine takes no word is left waiting with its word in TXQ (R106). -/
theorem runCycle_takesNoWord (h : AtTop s.cfg (s.mcu m)) (hstop : (s.mcu m).progress = .takesNoWord) :
    ∃ last between first : List Event, (∀ e ∈ last ++ between ++ first, e.mcu = m.peer) ∧
      Reached s m (submitRow s.cfg (s.mcu m)) (last ++ between ++ first) (runCycle m s) := by
  have hno : engineGoes (submitRow s.cfg (s.mcu m)) = false := by simp [engineGoes, submitRow, hstop, h.eph]
  obtain ⟨first, hfirst, hsubmit⟩ := ((Reached.refl s m).submit h).peerGap
  obtain ⟨between, hbetween, hgap⟩ := hsubmit.peerGap
  obtain ⟨last, hlast, hcycle⟩ := hgap.cycleRest_stopped h.rst rfl h.rxq hno
  rw [← hsubmit.whileGoing_stopped hno (apply m), ← cycleSteps_eq] at hcycle
  refine ⟨last, between, first, forall_mem_gaps hlast hbetween hfirst, ?_⟩
  rw [runCycle_without_result h (by rw [hcycle.own]; nofun)]
  simpa only [List.append_assoc, List.cons_append, List.append_nil] using hcycle

/-- Settles O36: the three ways of a RUNCYCLE, by the progress of its engine. -/
theorem runCycleReturnsWordAndPattern : Obligations.RunCycleReturnsWordAndPattern := by
  rintro s m w v seen hr hp he htx hrx htd hrd hc rfl rfl hv
  have h : AtTop s.cfg (s.mcu m) :=
    ⟨hr, submitEnabled_iff.mpr ⟨hp, by rw [htx]; exact htd, hc⟩, he, htx, hrx, hrd⟩
  cases hgo : (s.mcu m).progress with
  | goesOn =>
    obtain ⟨last, between, first, hpeer, ht⟩ := runCycle_goesOn h hgo hv
    exact ⟨_, last, between, first, rfl, ht.cfg, ht.turns, hpeer, ht.own, ht.events⟩
  | givesNoResult =>
    obtain ⟨last, between, first, hpeer, ht⟩ := runCycle_givesNoResult h hgo
    exact ⟨_, last, between, first, rfl, ht.cfg, ht.turns, hpeer, ht.own, ht.events⟩
  | takesNoWord =>
    obtain ⟨last, between, first, hpeer, ht⟩ := runCycle_takesNoWord h hgo
    exact ⟨_, last, between, first, rfl, ht.cfg, ht.turns, hpeer, ht.own, ht.events⟩

end Sys2Proof.Machine
end

section
/-! What takes the place of exceptions: an operation that takes a step yields to an asserted reset, and no step faults or
is refused (R110, R114, R130). -/

namespace Sys2Proof.Machine

variable {s : State} {m : McuId} {c : Code} {i : Instr}

/-! ### Reset wins -/

/-- The operations that take no step of the arbiter or the engine: they are combinational or timing alone (R15, R100). -/
def stepless : List StepOp := [.selA, .selB, .enc, .inv, .delayA]

/-- While its MCU is held in reset, an operation that takes a step is the reset (R130). -/
theorem exec_of_rst (hi : opOf i ∉ stepless) (hr : (s.mcu i.mcu).rst = true) :
    exec i s = .next (resetMcu i.mcu s) := by
  cases i with
  | selA0 | selA1 | selA2 | selA3 | selA4 | selA5 | selA6 | selA7 | selA
  | selB0 | selB1 | selB2 | selB3 | selB4 | selB5 | selB6 | selB7 | selB
  | enc | inv | delayA => simp [opOf, stepless] at hi
  | drvL0 | drvL1 | drvL2 | drvL3 | drvL4 | drvL5 | drvL6 | drvL7 | drvNone | drvAny
  | submit | retrieve | apply | sample | report | advance | cancel | runCycle =>
    exact congrArg Host.Outcome.next (whenUp_reset hr _)

/-- Settles O49: each operation of the list takes a step, so it is the reset of its MCU. -/
theorem resetBeatsEveryStep : Obligations.ResetBeatsEveryStep := by
  intro s m w hr i hi
  have hop : i.mcu = m ∧ opOf i ∉ stepless := by
    revert i
    simp [Instr.mcu, opOf, stepless]
  obtain ⟨rfl, hstep⟩ := hop
  exact ⟨_, exec_of_rst hstep hr, resetMcu_mcu i.mcu s ▸ resetRow_inReset s.cfg (s.mcu i.mcu),
    (resetMcu_frame i.mcu s).peer, setMcu_events ..⟩

/-! ### Every step answers -/

/-- A slot word read from the registers has no bit above bit 3 (R50). -/
theorem slotWord_lt_sixteen (x : Mcu) : ((slotWord x).setWidth 8).toNat < 16 := by
  rw [BitVec.toNat_setWidth_of_le (by decide)]
  exact (slotWord x).isLt

/-- Every code that a turn reads from the machine decodes: the one rejection, of a slot word with a high bit, cannot
happen (R50, R58, R61). -/
theorem decode_of_fetchCode {u : Turn} (h : fetchCode u s = some (m, c)) : ∃ i, decode m c = .ok i := by
  cases c with
  | txword b => exact ⟨_, rfl⟩
  | step op => exact ⟨_, rfl⟩
  | slot b =>
    cases u with
    | slot n =>
      cases h
      obtain ⟨i, hi, -⟩ := exec_decodeSlot m s (slotWord_lt_sixteen (s.mcu m))
      exact ⟨i, hi⟩
    | pads | agent => simp [fetchCode] at h
    | step | rst | cancel | progress => cases h

/-- Settles O53: a turn that reads no code is an idle turn, and a code that is read decodes to an operation, which answers
a next state. -/
theorem everyStepAnswersNext : Obligations.EveryStepAnswersNext := by
  intro s
  cases hf : fetchCode (nextTurn s).1 (nextTurn s).2 with
  | none => exact ⟨_, step_of_fetchCode_none hf⟩
  | some read =>
    obtain ⟨i, hi⟩ := decode_of_fetchCode hf
    rw [step_of_decode_ok hf hi]
    exact exec_next i _

end Sys2Proof.Machine
end

section
/-! The history, the slot words that are not four bits, and the operations that wait: what a step leaves of the events, what
the decoder rejects, and each operation and row where its condition fails (R50, R56, R70, R71, R90 to R93, R101 to
R104). -/

namespace Sys2Proof.Machine

variable {s : State} {m : McuId} {r : Role} {c : Count} {b w : Byte}

/-! ### The history -/

/-- An input turn emits nothing. -/
@[simp] theorem idleTurn_events (u : Turn) (s : State) : (idleTurn u s).events = s.events := by
  cases u with
  | slot | pads | step | agent => rfl
  | rst m level => exact setRst_events level
  | cancel | progress => exact setMcu_events ..

theorem OwnFrame.events_suffix {t : State} (h : OwnFrame m s t) : s.events <:+ t.events := by
  obtain ⟨new, hnew, -⟩ := h.events
  exact ⟨new, hnew.symm⟩

/-- Settles O55: an operation puts its events before the old ones, an idle turn and the model's bookkeeping emit none. -/
theorem eventsAreOnlyAdded : Obligations.EventsAreOnlyAdded := by
  intro s t h
  have hsuffix : s.events <:+ t.events :=
    step_keep (P := fun u => s.events <:+ u.events)
      (fun _ _ _ _ hu hrow => hu.trans hrow.1.events_suffix)
      (fun w u hu => by rwa [idleTurn_events])
      (fun _ _ _ hu => hu) (List.suffix_refl _) h
  obtain ⟨new, hnew⟩ := hsuffix
  exact ⟨new, hnew.symm⟩

/-! ### The slot words -/

theorem encode_fst (i : Instr) : (encode i).1 = i.mcu := by
  cases i <;> rfl

theorem decodeSlot_of_high_bits (h : 16 ≤ b.toNat) : decodeSlot m b = .error .slotHighBits := by
  unfold decodeSlot
  split
  case h_17 => rfl
  all_goals omega

/-- Settles O3: a word below 16 has its row, whose code names the MCU, and the decoder has no row above. -/
theorem slotWordsHaveFourBits : Obligations.SlotWordsHaveFourBits := by
  intro m b
  constructor
  · intro h
    obtain ⟨i, hi, -⟩ := exec_decodeSlot m State.reset h
    have hcode : encode i = (m, .slot b) := (encode_of_decodeSlot hi).2
    exact ⟨i, hi, by rw [← encode_fst, hcode]⟩
  · exact decodeSlot_of_high_bits

/-! ### The rows that are not the MCU's own -/

theorem showIndex_other (h : (s.mcu m).role ≠ r) : showIndex r m s = s := if_neg h

theorem showRow_other (h : (s.mcu m).role ≠ r ∨ (s.mcu m).cnt ≠ c) : showRow r c m s = s :=
  if_neg (not_and_or.mpr h)

/-- Settles O8: every operation of slot selection is `showIndex` or `showRow` of its role and counter. -/
theorem otherSlotRowsShowNothing : Obligations.OtherSlotRowsShowNothing := by
  intro s m
  refine ⟨?selA, ?selB, ?_, ?_, ?_, ?_, ?_, ?_, ?_, ?_, ?_, ?_, ?_, ?_, ?_, ?_, ?_, ?_⟩
  case selA | selB => exact fun h => congrArg Host.Outcome.next (showIndex_other h)
  all_goals exact fun h => congrArg Host.Outcome.next (showRow_other h)

/-! ### The operations that are not enabled -/

/-- A row of the pad driver waits where APPLY does, and where another word or none is at the head of TXQ (R92, log
entry 5). -/
theorem drive_waits (hr : (s.mcu m).rst = false) (h : (s.mcu m).eph = .settle ∨ (s.mcu m).txq.head? ≠ some w) :
    drive w m s = s := by
  by_cases hw : (s.mcu m).txq.head? = some w
  · rw [drive_head hr hw, apply_waits hr (.inl (h.resolve_right (not_not_intro hw)))]
  · exact drive_other hr hw

/-- Settles O31: each clause is the negation of one enabling condition, under which that operation waits. -/
theorem operationsNotEnabledWait : Obligations.OperationsNotEnabledWait := by
  intro s m hr
  refine ⟨fun h => ?submit, fun h => ?apply, fun h => ?sample, fun h => ?retrieve, fun h => ?report, fun h => ?advance,
    fun h => ?cancel, fun w h => ?drvAny, fun p hp h => ?drvRow⟩
  case submit =>
    have hoff := submitEnabled_eq_false_iff.mpr h
    exact ⟨congrArg Host.Outcome.next (submit_waits hr hoff), congrArg Host.Outcome.next (runCycle_waits hr hoff)⟩
  case apply => exact congrArg Host.Outcome.next (apply_waits hr h)
  case sample => exact congrArg Host.Outcome.next (sample_waits hr (sampleEnabled_eq_false_iff.mpr h))
  case retrieve => exact congrArg Host.Outcome.next (retrieve_waits hr h)
  case report => exact congrArg Host.Outcome.next (report_waits hr h)
  case advance => exact congrArg Host.Outcome.next (advance_waits hr h)
  case cancel => exact congrArg Host.Outcome.next (cancel_waits hr (cancelEnabled_eq_false_iff.mpr h))
  case drvAny => exact congrArg Host.Outcome.next (drive_waits hr h)
  case drvRow =>
    have hrow : exec p.2 s = .next (drive p.1 m s) := by
      simp only [List.mem_cons, List.not_mem_nil, or_false] at hp
      rcases hp with rfl | rfl | rfl | rfl | rfl | rfl | rfl | rfl | rfl <;> rfl
    rw [hrow, drive_waits hr h]

end Sys2Proof.Machine
end
